-- ==== Sys2Proof/Word.lean ====
section
/-! DEFINITION. The word types of the core (00_scope.md R7, R10) and the widths of an instruction's fields (30_encoding.md R61). -/

namespace Sys2Proof

/-- `Word32` of 00_scope.md R10: register contents, addresses, extended immediates, instruction words. -/
abbrev Word := BitVec 32

/-- One byte of memory (20_memory.md R40). -/
abbrev Byte := BitVec 8

/-- The field `imm`, bits 15:0 (30_encoding.md R61). -/
abbrev Imm16 := BitVec 16

/-- The field `target`, bits 25:0 (30_encoding.md R61). -/
abbrev Target26 := BitVec 26

/-- The field `shamt`, bits 10:6, and the amount of a variable shift, `x[rs][4:0]` (30_encoding.md R65). -/
abbrev Shamt := BitVec 5

/-- A register number 0..31 (10_state.md R20, 30_encoding.md R66). -/
abbrev RegIdx := Fin 32

end Sys2Proof
end

