-- ==== Sys2Proof/Config.lean ====
section
/-! DEFINITION. The configuration of a core (00_scope.md R8): fixed at construction, changed by no instruction. The harness's
`STEP_CEILING` is no part of the core (R8, 60_exceptions.md R188) and is an argument of the harness's run. -/

namespace Sys2Proof

/-- `BYTE_ORDER` (20_memory.md R45). -/
inductive ByteOrder where
  | little
  | big
deriving DecidableEq, Repr

/-- `DS_BRANCH_POLICY`: what a J or BEQ in a delay slot does (44_control_transfer.md R159 to R163). -/
inductive BranchPolicy where
  | reject
  | firstWins
  | lastWriteWins
  | pipelined
deriving DecidableEq, Repr

/-- The parameters of 00_scope.md R8. Which of their values a construction accepts is 70_reset_and_hazards.md R201
(`Config.accepted` in Machine/Construct.lean). -/
structure Config where
  byteOrder    : ByteOrder
  memSize      : Nat
  image        : List Byte
  imageBase    : Word
  entry        : Word
  branchPolicy : BranchPolicy
deriving DecidableEq, Repr

end Sys2Proof
end

