-- ==== Sys2Proof/Machine/Bytes.lean ====
section
/-! DEFINITION. Byte order, in one place: the value of a sequence of bytes and the bytes of a value (20_memory.md R42, R43, R45).
Fetch, loads, stores and the decoder over bytes all go through these. -/

namespace Sys2Proof

/-- The value of bytes of which the first is the least significant: the sum of `byte i << (8 * i)`. -/
def leValue : List Byte → Nat
  | []      => 0
  | b :: bs => b.toNat + 256 * leValue bs

/-- The value of bytes in address order (20_memory.md R42). -/
def valueOf (order : ByteOrder) (bs : List Byte) : Nat :=
  match order with
  | .little => leValue bs
  | .big    => leValue bs.reverse

/-- The low `n` bytes of a word, least significant first. -/
def leBytes (n : Nat) (v : Word) : List Byte := (List.range n).map fun i => v.extractLsb' (8 * i) 8

/-- The low `n` bytes of a word in address order (20_memory.md R43). -/
def bytesOf (order : ByteOrder) (n : Nat) (v : Word) : List Byte :=
  match order with
  | .little => leBytes n v
  | .big    => (leBytes n v).reverse

end Sys2Proof
end

