-- ==== Sys2Proof/Syntax.lean ====
section
/-! DEFINITION. The 29 instructions (00_scope.md R2), one constructor per row of spec/opcode_table.json. Operands stand in the
order the assembler writes them (30_encoding.md R79), a load's or store's base register before its offset. Every operand is typed
at the width of its field (R61, R66), so that no term names a register above 31 or an immediate that has no encoding. -/

namespace Sys2Proof

/-- An instruction with its operands. -/
inductive Instr where
  | lui   (rt : RegIdx) (imm : Imm16)
  | ori   (rt rs : RegIdx) (imm : Imm16)
  | addiu (rt rs : RegIdx) (imm : Imm16)
  | andi  (rt rs : RegIdx) (imm : Imm16)
  | xori  (rt rs : RegIdx) (imm : Imm16)
  | addu  (rd rs rt : RegIdx)
  | subu  (rd rs rt : RegIdx)
  | and   (rd rs rt : RegIdx)
  | or    (rd rs rt : RegIdx)
  | xor   (rd rs rt : RegIdx)
  | nor   (rd rs rt : RegIdx)
  | slt   (rd rs rt : RegIdx)
  | sltu  (rd rs rt : RegIdx)
  | sll   (rd rt : RegIdx) (shamt : Shamt)
  | srl   (rd rt : RegIdx) (shamt : Shamt)
  | sra   (rd rt : RegIdx) (shamt : Shamt)
  | sllv  (rd rt rs : RegIdx)
  | srlv  (rd rt rs : RegIdx)
  | srav  (rd rt rs : RegIdx)
  | sb    (rt rs : RegIdx) (imm : Imm16)
  | sh    (rt rs : RegIdx) (imm : Imm16)
  | sw    (rt rs : RegIdx) (imm : Imm16)
  | lb    (rt rs : RegIdx) (imm : Imm16)
  | lbu   (rt rs : RegIdx) (imm : Imm16)
  | lh    (rt rs : RegIdx) (imm : Imm16)
  | lhu   (rt rs : RegIdx) (imm : Imm16)
  | lw    (rt rs : RegIdx) (imm : Imm16)
  | j     (target : Target26)
  | beq   (rs rt : RegIdx) (imm : Imm16)
deriving DecidableEq, Repr

/-- The name of an instruction, without its operands: one per row of the opcode table. -/
inductive Mnemonic where
  | lui | ori | addiu | andi | xori
  | addu | subu | and | or | xor | nor | slt | sltu
  | sll | srl | sra | sllv | srlv | srav
  | sb | sh | sw | lb | lbu | lh | lhu | lw
  | j | beq
deriving DecidableEq, Repr

/-- The name under which an instruction stands in the opcode table. -/
def Instr.mnemonic : Instr → Mnemonic
  | .lui _ _     => .lui
  | .ori _ _ _   => .ori
  | .addiu _ _ _ => .addiu
  | .andi _ _ _  => .andi
  | .xori _ _ _  => .xori
  | .addu _ _ _  => .addu
  | .subu _ _ _  => .subu
  | .and _ _ _   => .and
  | .or _ _ _    => .or
  | .xor _ _ _   => .xor
  | .nor _ _ _   => .nor
  | .slt _ _ _   => .slt
  | .sltu _ _ _  => .sltu
  | .sll _ _ _   => .sll
  | .srl _ _ _   => .srl
  | .sra _ _ _   => .sra
  | .sllv _ _ _  => .sllv
  | .srlv _ _ _  => .srlv
  | .srav _ _ _  => .srav
  | .sb _ _ _    => .sb
  | .sh _ _ _    => .sh
  | .sw _ _ _    => .sw
  | .lb _ _ _    => .lb
  | .lbu _ _ _   => .lbu
  | .lh _ _ _    => .lh
  | .lhu _ _ _   => .lhu
  | .lw _ _ _    => .lw
  | .j _         => .j
  | .beq _ _ _   => .beq

end Sys2Proof
end

