-- ==== Sys2Proof/WellFormed.lean ====
section
/-! DEFINITION. What is well formed, and the checks that refuse the rest. Three things are checked.
A WORD is well formed when it is one of the opcode table (30_encoding.md R67 to R70, R74): it matches a row's mask, which fixes
opcode, function code and must-be-zero fields.
An OPERAND as an assembler reads it, a number of any size, is well formed in the range of R66 and R83.
An `Instr` needs no check of its own: each operand is typed at its field's width, so every term is well formed
(`Instr.wellFormed`, by its words, and the laws of Sys2Proof/Laws/PerInstr.lean). -/

namespace Sys2Proof

/-- One row of the opcode table: a word `w` belongs to it when `w &&& mask = pattern` (30_encoding.md R69, R71). -/
structure OpcodeRow where
  mask    : Word
  pattern : Word
deriving DecidableEq, Repr

/-- Whether a word belongs to a row. -/
def OpcodeRow.admits (r : OpcodeRow) (w : Word) : Bool := w &&& r.mask == r.pattern

/-- Mask of a row that fixes the opcode alone (30_encoding.md R69, last row). -/
def opMask : Word := 0xFC000000
/-- Mask of LUI: opcode and `rs = 0` (R69). -/
def luiMask : Word := 0xFFE00000
/-- Mask of the three-register operations: opcode, function code and `shamt = 0` (R69). -/
def regMask : Word := 0xFC0007FF
/-- Mask of the immediate shifts: opcode, function code and `rs = 0` (R69). -/
def shiftMask : Word := 0xFFE0003F

/-- The opcode table: mask and match of each instruction (the rules R91 to R152 give them one by one). -/
def Mnemonic.row : Mnemonic → OpcodeRow
  | .lui   => ⟨luiMask, 0x3C000000⟩
  | .ori   => ⟨opMask, 0x34000000⟩
  | .addiu => ⟨opMask, 0x24000000⟩
  | .andi  => ⟨opMask, 0x30000000⟩
  | .xori  => ⟨opMask, 0x38000000⟩
  | .addu  => ⟨regMask, 0x00000021⟩
  | .subu  => ⟨regMask, 0x00000023⟩
  | .and   => ⟨regMask, 0x00000024⟩
  | .or    => ⟨regMask, 0x00000025⟩
  | .xor   => ⟨regMask, 0x00000026⟩
  | .nor   => ⟨regMask, 0x00000027⟩
  | .slt   => ⟨regMask, 0x0000002A⟩
  | .sltu  => ⟨regMask, 0x0000002B⟩
  | .sll   => ⟨shiftMask, 0x00000000⟩
  | .srl   => ⟨shiftMask, 0x00000002⟩
  | .sra   => ⟨shiftMask, 0x00000003⟩
  | .sllv  => ⟨regMask, 0x00000004⟩
  | .srlv  => ⟨regMask, 0x00000006⟩
  | .srav  => ⟨regMask, 0x00000007⟩
  | .sb    => ⟨opMask, 0xA0000000⟩
  | .sh    => ⟨opMask, 0xA4000000⟩
  | .sw    => ⟨opMask, 0xAC000000⟩
  | .lb    => ⟨opMask, 0x80000000⟩
  | .lbu   => ⟨opMask, 0x90000000⟩
  | .lh    => ⟨opMask, 0x84000000⟩
  | .lhu   => ⟨opMask, 0x94000000⟩
  | .lw    => ⟨opMask, 0x8C000000⟩
  | .j     => ⟨opMask, 0x08000000⟩
  | .beq   => ⟨opMask, 0x10000000⟩

/-- Every name of the opcode table, in the table's order. -/
def Mnemonic.all : List Mnemonic :=
  [.lui, .ori, .addiu, .andi, .xori, .addu, .subu, .and, .or, .xor, .nor, .slt, .sltu] ++
  [.sll, .srl, .sra, .sllv, .srlv, .srav, .sb, .sh, .sw, .lb, .lbu, .lh, .lhu, .lw, .j, .beq]

/-- A word of the opcode table (30_encoding.md R74: every other word is illegal). -/
def wordWellFormed (w : Word) : Bool := Mnemonic.all.any fun m => m.row.admits w

/-- A register number as written, `$0` to `$31` (30_encoding.md R66). -/
def regOperand (n : Int) : Option RegIdx := if h : 0 ≤ n ∧ n < 32 then some ⟨n.toNat, by omega⟩ else none

/-- A 16-bit unsigned immediate, of ORI, ANDI, XORI and LUI (30_encoding.md R83). -/
def unsignedOperand (n : Int) : Option Imm16 := if 0 ≤ n ∧ n ≤ 0xFFFF then some (BitVec.ofInt 16 n) else none

/-- A 16-bit signed immediate, of ADDIU and the load and store offsets, stored as `n mod 2^16` (30_encoding.md R83). -/
def signedOperand (n : Int) : Option Imm16 := if -32768 ≤ n ∧ n ≤ 32767 then some (BitVec.ofInt 16 n) else none

/-- A shift amount (30_encoding.md R83). -/
def shamtOperand (n : Int) : Option Shamt := if 0 ≤ n ∧ n ≤ 31 then some (BitVec.ofInt 5 n) else none

/-- The offset field of a BEQ at `pc` whose label is the address `label`: `label - (pc + 4)` is a multiple of 4 in
-131072 .. 131068 (30_encoding.md R79, R83). DESIGN CHOICE (log 10): R83 does not say whether that difference is taken over the
integers or modulo 2^32; here it is taken over the integers, `pc + 4` being a Word32, so a label across the wrap is refused. -/
def branchOperand (pc : Word) (label : Int) : Option Imm16 :=
  let d := label - ((pc + 4).toNat : Int)
  if 0 ≤ label ∧ label < 2 ^ 32 ∧ d % 4 = 0 ∧ -131072 ≤ d ∧ d ≤ 131068 then some (BitVec.ofInt 16 (d / 4)) else none

/-- The target field of a J at `pc` whose label is the address `label`: a multiple of 4 with
`label[31:28] = (pc + 4)[31:28]` (30_encoding.md R79, R83). -/
def jumpOperand (pc : Word) (label : Int) : Option Target26 :=
  if 0 ≤ label ∧ label < 2 ^ 32 ∧ label % 4 = 0 ∧ label / 2 ^ 28 = ((pc + 4).toNat : Int) / 2 ^ 28 then
    some (BitVec.ofInt 26 (label / 4))
  else none

end Sys2Proof
end

