-- ==== Sys2Proof/Decode.lean ====
section
/-! DEFINITION. The decoder, total on words and on bytes, and after it the encoder (30_encoding.md R60 to R71). Both are written
from the spec's field table (R61) and opcode maps (R67, R68). Decoding depends on the word alone (R71, R77). -/

namespace Sys2Proof

/-- Why bits are not an instruction. The spec knows one result, `Unsupported` (30_encoding.md R70); the name says which of its
cases it was. -/
inductive DecodeError where
  /-- Fewer than the 4 bytes of an instruction (R60). -/
  | truncated
  /-- `op` is `---` in the primary opcode map (R67). -/
  | unsupportedOpcode (op : BitVec 6)
  /-- `op = 0` and `funct` is `---` in the SPECIAL map (R68). -/
  | unsupportedFunct (funct : BitVec 6)
  /-- A field that must be zero is not (R69). -/
  | nonzeroField
deriving DecidableEq, Repr

/-- `w[31:26]` (30_encoding.md R61). -/
def opField (w : Word) : BitVec 6 := w.extractLsb' 26 6
/-- `w[25:21]`. -/
def rsField (w : Word) : BitVec 5 := w.extractLsb' 21 5
/-- `w[20:16]`. -/
def rtField (w : Word) : BitVec 5 := w.extractLsb' 16 5
/-- `w[15:11]`. -/
def rdField (w : Word) : BitVec 5 := w.extractLsb' 11 5
/-- `w[10:6]`. -/
def shamtField (w : Word) : Shamt := w.extractLsb' 6 5
/-- `w[5:0]`. -/
def functField (w : Word) : BitVec 6 := w.extractLsb' 0 6
/-- `w[15:0]`. -/
def immField (w : Word) : Imm16 := w.extractLsb' 0 16
/-- `w[25:0]`. -/
def targetField (w : Word) : Target26 := w.extractLsb' 0 26

/-- The register a 5-bit field names (30_encoding.md R66). -/
def regOf (f : BitVec 5) : RegIdx := f.toFin
/-- The field that names a register. -/
def fieldOf (r : RegIdx) : BitVec 5 := BitVec.ofFin r

/-- An R-format instruction with three registers, accepted when `shamt = 0` (30_encoding.md R69). -/
def threeReg (w : Word) (mk : RegIdx → RegIdx → RegIdx → Instr) (a b c : BitVec 5) : Except DecodeError Instr :=
  if shamtField w = 0#5 then .ok (mk (regOf a) (regOf b) (regOf c)) else .error .nonzeroField

/-- A shift by an immediate, accepted when `rs = 0` (30_encoding.md R69). -/
def shiftImm (w : Word) (mk : RegIdx → RegIdx → Shamt → Instr) : Except DecodeError Instr :=
  if rsField w = 0#5 then .ok (mk (regOf (rdField w)) (regOf (rtField w)) (shamtField w)) else .error .nonzeroField

/-- An I-format instruction with `rt`, `rs` and `imm` (30_encoding.md R63). -/
def rtRsImm (w : Word) (mk : RegIdx → RegIdx → Imm16 → Instr) : Except DecodeError Instr :=
  .ok (mk (regOf (rtField w)) (regOf (rsField w)) (immField w))

/-- The words with `op = 0x00` (30_encoding.md R68, R70). -/
def decodeSpecial (w : Word) : Except DecodeError Instr :=
  match functField w with
  | 0x00#6 => shiftImm w .sll
  | 0x02#6 => shiftImm w .srl
  | 0x03#6 => shiftImm w .sra
  | 0x04#6 => threeReg w .sllv (rdField w) (rtField w) (rsField w)
  | 0x06#6 => threeReg w .srlv (rdField w) (rtField w) (rsField w)
  | 0x07#6 => threeReg w .srav (rdField w) (rtField w) (rsField w)
  | 0x21#6 => threeReg w .addu (rdField w) (rsField w) (rtField w)
  | 0x23#6 => threeReg w .subu (rdField w) (rsField w) (rtField w)
  | 0x24#6 => threeReg w .and (rdField w) (rsField w) (rtField w)
  | 0x25#6 => threeReg w .or (rdField w) (rsField w) (rtField w)
  | 0x26#6 => threeReg w .xor (rdField w) (rsField w) (rtField w)
  | 0x27#6 => threeReg w .nor (rdField w) (rsField w) (rtField w)
  | 0x2A#6 => threeReg w .slt (rdField w) (rsField w) (rtField w)
  | 0x2B#6 => threeReg w .sltu (rdField w) (rsField w) (rtField w)
  | f => .error (.unsupportedFunct f)

/-- `decode(w)` of 30_encoding.md R70. -/
def decode (w : Word) : Except DecodeError Instr :=
  match opField w with
  | 0x00#6 => decodeSpecial w
  | 0x02#6 => .ok (.j (targetField w))
  | 0x04#6 => .ok (.beq (regOf (rsField w)) (regOf (rtField w)) (immField w))
  | 0x09#6 => rtRsImm w .addiu
  | 0x0C#6 => rtRsImm w .andi
  | 0x0D#6 => rtRsImm w .ori
  | 0x0E#6 => rtRsImm w .xori
  | 0x0F#6 => if rsField w = 0#5 then .ok (.lui (regOf (rtField w)) (immField w)) else .error .nonzeroField
  | 0x20#6 => rtRsImm w .lb
  | 0x21#6 => rtRsImm w .lh
  | 0x23#6 => rtRsImm w .lw
  | 0x24#6 => rtRsImm w .lbu
  | 0x25#6 => rtRsImm w .lhu
  | 0x28#6 => rtRsImm w .sb
  | 0x29#6 => rtRsImm w .sh
  | 0x2B#6 => rtRsImm w .sw
  | op => .error (.unsupportedOpcode op)

/-- The decoder over bytes: the instruction at the front of a byte sequence and the bytes after it. An instruction is always 4
bytes (30_encoding.md R60, R77). -/
def decodeBytes (order : ByteOrder) : List Byte → Except DecodeError (Instr × List Byte)
  | b0 :: b1 :: b2 :: b3 :: rest =>
    match decode (BitVec.ofNat 32 (valueOf order [b0, b1, b2, b3])) with
    | .ok i    => .ok (i, rest)
    | .error e => .error e
  | _ => .error .truncated

/-- The instruction the decoder reads from a row of spec/opcode_table.json whose bits are `w`, laid out as the hardware stores them
in its default byte order (00_scope.md R8: little-endian). Every row of the table has all 32 bits. -/
def decodeTableWord (nbits w : Nat) : Option Instr :=
  match decodeBytes .little (bytesOf .little 4 (BitVec.ofNat 32 (w % 2 ^ nbits))) with
  | .ok (i, _) => some i
  | .error _   => none

/-- R format, `op = 0` (30_encoding.md R62). -/
def encodeR (rs rt rd shamt : BitVec 5) (funct : BitVec 6) : Word := 0#6 ++ rs ++ rt ++ rd ++ shamt ++ funct

/-- I format (30_encoding.md R63). -/
def encodeI (op : BitVec 6) (rs rt : BitVec 5) (imm : Imm16) : Word := op ++ rs ++ rt ++ imm

/-- J format (30_encoding.md R64). -/
def encodeJ (op : BitVec 6) (target : Target26) : Word := op ++ target

/-- The word of an instruction (30_encoding.md R61 to R69). -/
def encode : Instr → Word
  | .lui rt imm      => encodeI 0x0F#6 0#5 (fieldOf rt) imm
  | .ori rt rs imm   => encodeI 0x0D#6 (fieldOf rs) (fieldOf rt) imm
  | .addiu rt rs imm => encodeI 0x09#6 (fieldOf rs) (fieldOf rt) imm
  | .andi rt rs imm  => encodeI 0x0C#6 (fieldOf rs) (fieldOf rt) imm
  | .xori rt rs imm  => encodeI 0x0E#6 (fieldOf rs) (fieldOf rt) imm
  | .addu rd rs rt   => encodeR (fieldOf rs) (fieldOf rt) (fieldOf rd) 0#5 0x21#6
  | .subu rd rs rt   => encodeR (fieldOf rs) (fieldOf rt) (fieldOf rd) 0#5 0x23#6
  | .and rd rs rt    => encodeR (fieldOf rs) (fieldOf rt) (fieldOf rd) 0#5 0x24#6
  | .or rd rs rt     => encodeR (fieldOf rs) (fieldOf rt) (fieldOf rd) 0#5 0x25#6
  | .xor rd rs rt    => encodeR (fieldOf rs) (fieldOf rt) (fieldOf rd) 0#5 0x26#6
  | .nor rd rs rt    => encodeR (fieldOf rs) (fieldOf rt) (fieldOf rd) 0#5 0x27#6
  | .slt rd rs rt    => encodeR (fieldOf rs) (fieldOf rt) (fieldOf rd) 0#5 0x2A#6
  | .sltu rd rs rt   => encodeR (fieldOf rs) (fieldOf rt) (fieldOf rd) 0#5 0x2B#6
  | .sll rd rt sa    => encodeR 0#5 (fieldOf rt) (fieldOf rd) sa 0x00#6
  | .srl rd rt sa    => encodeR 0#5 (fieldOf rt) (fieldOf rd) sa 0x02#6
  | .sra rd rt sa    => encodeR 0#5 (fieldOf rt) (fieldOf rd) sa 0x03#6
  | .sllv rd rt rs   => encodeR (fieldOf rs) (fieldOf rt) (fieldOf rd) 0#5 0x04#6
  | .srlv rd rt rs   => encodeR (fieldOf rs) (fieldOf rt) (fieldOf rd) 0#5 0x06#6
  | .srav rd rt rs   => encodeR (fieldOf rs) (fieldOf rt) (fieldOf rd) 0#5 0x07#6
  | .sb rt rs imm    => encodeI 0x28#6 (fieldOf rs) (fieldOf rt) imm
  | .sh rt rs imm    => encodeI 0x29#6 (fieldOf rs) (fieldOf rt) imm
  | .sw rt rs imm    => encodeI 0x2B#6 (fieldOf rs) (fieldOf rt) imm
  | .lb rt rs imm    => encodeI 0x20#6 (fieldOf rs) (fieldOf rt) imm
  | .lbu rt rs imm   => encodeI 0x24#6 (fieldOf rs) (fieldOf rt) imm
  | .lh rt rs imm    => encodeI 0x21#6 (fieldOf rs) (fieldOf rt) imm
  | .lhu rt rs imm   => encodeI 0x25#6 (fieldOf rs) (fieldOf rt) imm
  | .lw rt rs imm    => encodeI 0x23#6 (fieldOf rs) (fieldOf rt) imm
  | .j target        => encodeJ 0x02#6 target
  | .beq rs rt imm   => encodeI 0x04#6 (fieldOf rs) (fieldOf rt) imm

/-- The check of an instruction by its word: it belongs to the row of its own name. Every term passes (Laws/PerInstr.lean). -/
def Instr.wellFormed (i : Instr) : Bool := i.mnemonic.row.admits (encode i)

end Sys2Proof
end

