-- ==== Sys2Proof/Machine/Parameters.lean ====
section
/-! DEFINITION. The parameter values of the machine after reset: the defaults of 00_scope.md R8, and the two it gives no default. -/

namespace Sys2Proof.Machine

/-- `MEM_SIZE` of `State.reset`. DESIGN CHOICE, unsafe (log 3): 00_scope.md R8 gives no default; 0x1000 is the common start state of
95_test_vectors.md. -/
def defaultMemSize : Nat := 0x1000

/-- The configuration of `State.reset`: `BYTE_ORDER = Little`, `IMAGE_BASE = 0`, `ENTRY = IMAGE_BASE` and
`DS_BRANCH_POLICY = Reject` are the defaults of 00_scope.md R8; the empty image is a DESIGN CHOICE (log 4). -/
def defaultConfig : Config :=
  { byteOrder := .little, memSize := defaultMemSize, image := [], imageBase := 0, entry := 0, branchPolicy := .reject }

end Sys2Proof.Machine
end

