-- ==== Sys2Proof/Machine/State.lean ====
section
/-! DEFINITION. The whole state of the core, as plain data (10_state.md), the fault record and the reasons a step can stop
(60_exceptions.md R170, R171), and the state after reset (10_state.md R34). -/

namespace Sys2Proof.Machine

/-- The widths of an access: 1, 2 and 4 bytes (20_memory.md R50). -/
inductive AccessWidth where
  | byte
  | half
  | word
deriving DecidableEq, Repr

/-- Who makes an access (20_memory.md R44). -/
inductive AccessKind where
  | fetch
  | load
  | store
deriving DecidableEq, Repr

/-- The fatal conditions of the core (60_exceptions.md R170). -/
inductive Cause where
  /-- The fetched word is not in the instruction table (30_encoding.md R75). -/
  | unsupportedInstruction
  /-- An access with a byte outside `0 .. MEM_SIZE-1` (20_memory.md R44). -/
  | outOfBoundsAccess (addr : Word) (width : AccessWidth) (kind : AccessKind)
  /-- A J or BEQ in a delay slot under `DS_BRANCH_POLICY = Reject` (44_control_transfer.md R160). -/
  | branchInDelaySlot
deriving DecidableEq, Repr

/-- A fault record (60_exceptions.md R171). `addr`, `width` and `kind` stand in the cause they belong to. -/
structure FaultRecord where
  cause   : Cause
  pc      : Word
  word    : Option Word
  pending : Option Word
  message : String
deriving DecidableEq, Repr

/-- `status` (10_state.md R29). -/
inductive RunStatus where
  | running
  | stopped (f : FaultRecord)
deriving DecidableEq, Repr

/-- The delay-slot state: the two control states that the pair `(pending_target, in_delay_slot)` encodes, "no other pair is
reachable" (10_state.md R27; log 2). -/
inductive Control where
  | normal
  | delaySlotPending (target : Word)
deriving DecidableEq, Repr

/-- Memory: (address, byte) pairs in canonical form, `Memory.wf`. -/
abbrev Memory := List Host.Cell

/-- What an unlisted address reads as: memory is "created empty/zero" (10_state.md R34). -/
def unlistedByte : Byte := 0

/-- The canonical form: addresses strictly rising, and no entry equal to what an unlisted address reads as. -/
abbrev Memory.wf (m : Memory) : Prop := m.Pairwise (fun c d => c.1 < d.1) ∧ ∀ c ∈ m, c.2 ≠ unlistedByte


/-- The state of the core: `(x, pc, pending_target, in_delay_slot, mem, status)` (10_state.md) and the constants of the instance,
which no step changes (10_state.md R35; log 1). -/
structure State where
  config  : Config
  x       : Vector Word 32
  pc      : Word
  control : Control
  mem     : Memory
  status  : RunStatus
deriving DecidableEq, Repr

/-- `pending_target` (10_state.md R27). -/
def State.pendingTarget (s : State) : Option Word :=
  match s.control with
  | .normal             => none
  | .delaySlotPending t => some t

/-- `in_delay_slot` (10_state.md R27). -/
def State.inDelaySlot (s : State) : Bool :=
  match s.control with
  | .normal             => false
  | .delaySlotPending _ => true

/-- The machine right after reset, with the default configuration (10_state.md R34, 70_reset_and_hazards.md R200). -/
def State.reset : State :=
  { config := defaultConfig, x := Vector.replicate 32 0, pc := defaultConfig.entry, control := .normal, mem := [],
    status := .running }

/-- Why the machine makes no further state. -/
inductive Fault where
  /-- `raise E(info)` of 00_scope.md R16: the meaning of an instruction raises a fatal condition and writes nothing. Answered by
  `exec`, never by `step`, which catches it and records it in `status` (44_control_transfer.md R154). Safe: the spec's own fault. -/
  | fatal (cause : Cause)
  /-- `Halted`: the core has stopped and every later step changes nothing (60_exceptions.md R175). Answered by `step` alone, in a
  state whose status is `stopped f`. Safe: the spec's own stuck state. -/
  | halted (f : FaultRecord)
deriving DecidableEq, Repr

/-- Why the model gives no meaning. -/
inductive Refusal where
  /-- An instruction without a meaning yet, by its mnemonic. Raised by no arm of `exec` and by no step: every instruction of the
  table has its meaning. Safe. -/
  | notModelled (mnemonic : String)
deriving DecidableEq, Repr

end Sys2Proof.Machine
end

