-- ==== Sys2Proof/Machine/Ops.lean ====
section
/-! DEFINITION. The named operations over registers and memory, an instruction's effect and its commit, fetching, and taking a fatal
condition. Instruction meanings use these and nothing below them. -/

namespace Sys2Proof.Machine

/-! Registers (00_scope.md R14, 10_state.md R21) -/

/-- `x[i]`: register 0 always reads 0. -/
def State.reg (s : State) (r : RegIdx) : Word := if r = 0 then 0 else s.x[r]

/-- `x[i] <- v`: a write to register 0 is discarded. -/
def State.writeReg (s : State) (r : RegIdx) (v : Word) : State := if r = 0 then s else { s with x := s.x.set r v }

/-! Memory (20_memory.md) -/

/-- The byte at an address. -/
def Memory.read : Memory → Nat → Byte
  | [],             _ => unlistedByte
  | (b, v) :: rest, a => if a = b then v else Memory.read rest a

/-- Storing one byte, in canonical form: an unlisted address reads `unlistedByte`, so storing that value drops the entry. -/
def Memory.write : Memory → Nat → Byte → Memory
  | [],             a, v => if v = unlistedByte then [] else [(a, v)]
  | (b, w) :: rest, a, v =>
    if a < b then (if v = unlistedByte then (b, w) :: rest else (a, v) :: (b, w) :: rest)
    else if a = b then (if v = unlistedByte then rest else (a, v) :: rest)
    else (b, w) :: Memory.write rest a v

/-- The `n` bytes from an address on. -/
def Memory.readBytes (m : Memory) (a n : Nat) : List Byte := (List.range n).map fun i => m.read (a + i)

/-- Storing bytes from an address on, the first at the lowest address. -/
def Memory.writeBytes : Memory → Nat → List Byte → Memory
  | m, _, []      => m
  | m, a, b :: bs => Memory.writeBytes (m.write a b) (a + 1) bs

/-- The number of bytes of an access (20_memory.md R50). -/
def AccessWidth.bytes : AccessWidth → Nat
  | .byte => 1
  | .half => 2
  | .word => 4

/-- `check_bounds`: every byte is provisioned, the sum taken over the naturals with no wrap (20_memory.md R44). -/
def State.inBounds (s : State) (a : Word) (w : AccessWidth) : Bool := a.toNat + w.bytes ≤ s.config.memSize

/-- `MemRead(a, n)`, zero-extended to a word (20_memory.md R42). -/
def State.memRead (s : State) (a : Word) (w : AccessWidth) (kind : AccessKind) : Except Cause Word :=
  if s.inBounds a w then .ok (BitVec.ofNat 32 (valueOf s.config.byteOrder (s.mem.readBytes a.toNat w.bytes)))
  else .error (.outOfBoundsAccess a w kind)

/-- The store of `MemWrite(a, n, v)` once its bounds are checked (20_memory.md R43). -/
def State.storeBytes (s : State) (a : Word) (w : AccessWidth) (v : Word) : State :=
  { s with mem := s.mem.writeBytes a.toNat (bytesOf s.config.byteOrder w.bytes v) }

/-! An instruction's effect and its commit (44_control_transfer.md R154, R157) -/

/-- What one instruction does besides advancing: at most one register write, one store and one `branch(t)` (00_scope.md R16,
20_memory.md R50). -/
structure Effect where
  register : Option (RegIdx × Word) := none
  store    : Option (Word × AccessWidth × Word) := none
  branch   : Option Word := none
deriving DecidableEq, Repr

/-- The effect that writes one register. -/
def Effect.writes (r : RegIdx) (v : Word) : Effect := { register := some (r, v) }
/-- The effect that stores the low bytes of a word. -/
def Effect.stores (a : Word) (w : AccessWidth) (v : Word) : Effect := { store := some (a, w, v) }
/-- The effect `branch(t)`. -/
def Effect.branchesTo (t : Word) : Effect := { branch := some t }
/-- No effect but the advance. -/
def Effect.nothing : Effect := {}

/-- The register write of an effect. -/
def State.applyRegister (s : State) : Option (RegIdx × Word) → State
  | none        => s
  | some (r, v) => s.writeReg r v

/-- The memory write of an effect. -/
def State.applyStore (s : State) : Option (Word × AccessWidth × Word) → State
  | none           => s
  | some (a, w, v) => s.storeBytes a w v

/-- `delay_slot_branch(p, t)`: a branch with target `t` in the delay slot of one with target `p` (44_control_transfer.md R161 to
R163). Under `reject` it is never reached, because `State.branchGuard` stops the instruction first (R157, R160). -/
def State.delaySlotBranch (s : State) (p t : Word) : State :=
  match s.config.branchPolicy with
  | .reject        => s
  | .firstWins     => { s with pc := p, control := .normal }
  | .lastWriteWins => { s with pc := t, control := .normal }
  | .pipelined     => { s with pc := p, control := .delaySlotPending t }

/-- The state machine of the commit (44_control_transfer.md R157). -/
def State.advance (s : State) (branch : Option Word) : State :=
  match s.control, branch with
  | .normal,             none   => { s with pc := s.pc + 4 }
  | .normal,             some t => { s with pc := s.pc + 4, control := .delaySlotPending t }
  | .delaySlotPending p, none   => { s with pc := p, control := .normal }
  | .delaySlotPending p, some t => s.delaySlotBranch p t

/-- `commit(eff)` (44_control_transfer.md R157). -/
def State.commit (s : State) (e : Effect) : State :=
  ((s.applyRegister e.register).applyStore e.store).advance e.branch

/-- The check before a J or BEQ runs: in a delay slot under `reject` it raises BranchInDelaySlot (44_control_transfer.md R154,
R160). -/
def State.branchGuard (s : State) : Except Cause Unit :=
  if s.inDelaySlot ∧ s.config.branchPolicy = .reject then .error .branchInDelaySlot else .ok ()

/-- The end of a meaning: commit an effect, or raise a fatal condition (44_control_transfer.md R154). -/
def State.finish (s : State) : Except Cause Effect → Host.Outcome State Fault Refusal
  | .ok e    => .next (s.commit e)
  | .error c => .fault (.fatal c)

/-! Fetch (44_control_transfer.md R155) and fatal conditions (60_exceptions.md R171, R174) -/

/-- `w <- MemRead(pc, 4)`. -/
def State.fetch (s : State) : Except Cause Word := s.memRead s.pc .word .fetch

/-- Fetch and decode: the word and its instruction, or the fatal condition with the word if there is one
(44_control_transfer.md R154, 60_exceptions.md R176). -/
def State.fetchDecode (s : State) : Except (Cause × Option Word) (Word × Instr) :=
  match s.fetch with
  | .error c => .error (c, none)
  | .ok w    =>
    match decode w with
    | .ok i    => .ok (w, i)
    | .error _ => .error (.unsupportedInstruction, some w)

/-- The text of a fault's message: "a text the model may leave empty" (60_exceptions.md R171; log 5). -/
def faultMessage : String := ""

/-- The fault record of a fatal condition in this step (60_exceptions.md R171). -/
def State.faultRecord (s : State) (c : Cause) (word : Option Word) : FaultRecord :=
  { cause := c, pc := s.pc, word := word, pending := s.pendingTarget, message := faultMessage }

/-- Taking a fatal condition: `status <- Stopped(f)` and nothing else (60_exceptions.md R173, R174). There is no trap entry and no
return (R177, R178). -/
def State.takeFatal (s : State) (c : Cause) (word : Option Word) : State :=
  { s with status := .stopped (s.faultRecord c word) }

/-- `on raise E(info)` around an instruction's meaning (44_control_transfer.md R154): `w` is the fetched word. -/
def State.catchFatal (s : State) (w : Word) : Host.Outcome State Fault Refusal → Host.Outcome State Fault Refusal
  | .next t           => .next t
  | .fault (.fatal c) => .next (s.takeFatal c (some w))
  | .fault r          => .fault r
  | .refused r        => .refused r

end Sys2Proof.Machine
end

