-- ==== Sys2Proof/Machine/Operands.lean ====
section
/-! DEFINITION. Every operand form: how an operand is built from an instruction's fields (30_encoding.md R65), the effective address
(43_load_store.md R130) and the extensions of a loaded value (20_memory.md R50). -/

namespace Sys2Proof.Machine

/-- `zimm` of ORI, ANDI, XORI: `zext_32(imm)`. -/
def zeroImm (imm : Imm16) : Word := imm.setWidth 32

/-- `simm` of ADDIU and the `offset` of loads and stores: `sext_32(imm)`. -/
def signImm (imm : Imm16) : Word := imm.signExtend 32

/-- `uimm` of LUI: `imm || 0x0000`. -/
def upperImm (imm : Imm16) : Word := imm ++ 0#16

/-- `boff` of BEQ: `sext_32(imm) << 2`. -/
def branchOffset (imm : Imm16) : Word := signImm imm <<< 2

/-- The target of a BEQ at `pc`: `pc + 4 + (sext_32(imm) << 2)` (44_control_transfer.md R152). -/
def branchTarget (pc : Word) (imm : Imm16) : Word := pc + 4 + branchOffset imm

/-- The target of a J at `pc`: `(pc + 4)[31:28] || target || 0b00` (44_control_transfer.md R151). -/
def jumpTarget (pc : Word) (target : Target26) : Word := (pc + 4).extractLsb' 28 4 ++ target ++ 0#2

/-- The amount of a variable shift: `x[rs][4:0]` (42_shifts.md R114). -/
def shiftAmount (v : Word) : Shamt := v.extractLsb' 0 5

/-- `ea <- x[rs] + sext_32(imm)` (43_load_store.md R130). -/
def State.effectiveAddress (s : State) (rs : RegIdx) (imm : Imm16) : Word := s.reg rs + signImm imm

/-- The number of bits of an access. -/
def AccessWidth.bits (w : AccessWidth) : Nat := 8 * w.bytes

/-- `sext_32` of a value of the access's width (00_scope.md R12). -/
def signExtendFrom (w : AccessWidth) (v : Word) : Word := (v.setWidth w.bits).signExtend 32

/-- `zext_32` of a value of the access's width (00_scope.md R12). -/
def zeroExtendFrom (w : AccessWidth) (v : Word) : Word := (v.setWidth w.bits).setWidth 32

end Sys2Proof.Machine
end

