-- ==== Sys2Proof/Machine/AluImmediate.lean ====
section
/-! DEFINITION. The immediate ALU instructions (40_alu_immediate.md R90 to R95). -/

namespace Sys2Proof.Machine

/-- LUI (R91): `x[rt] <- imm || 0x0000`. -/
def execLui (rt : RegIdx) (imm : Imm16) (s : State) : Host.Outcome State Fault Refusal :=
  s.finish (.ok (.writes rt (upperImm imm)))

/-- ORI (R92): `x[rt] <- x[rs] | zext_32(imm)`. -/
def execOri (rt rs : RegIdx) (imm : Imm16) (s : State) : Host.Outcome State Fault Refusal :=
  s.finish (.ok (.writes rt (s.reg rs ||| zeroImm imm)))

/-- ADDIU (R93): `x[rt] <- x[rs] + sext_32(imm)`, modulo 2^32. -/
def execAddiu (rt rs : RegIdx) (imm : Imm16) (s : State) : Host.Outcome State Fault Refusal :=
  s.finish (.ok (.writes rt (s.reg rs + signImm imm)))

/-- ANDI (R94): `x[rt] <- x[rs] & zext_32(imm)`. -/
def execAndi (rt rs : RegIdx) (imm : Imm16) (s : State) : Host.Outcome State Fault Refusal :=
  s.finish (.ok (.writes rt (s.reg rs &&& zeroImm imm)))

/-- XORI (R95): `x[rt] <- x[rs] ^ zext_32(imm)`. -/
def execXori (rt rs : RegIdx) (imm : Imm16) (s : State) : Host.Outcome State Fault Refusal :=
  s.finish (.ok (.writes rt (s.reg rs ^^^ zeroImm imm)))

end Sys2Proof.Machine
end

