-- ==== Sys2Proof/Machine/Flags.lean ====
section
/-! DEFINITION. The core has no flags and no condition codes (10_state.md R30), so no flag is computed anywhere. What stands in their
place: the comparisons whose result SLT and SLTU write to a register and BEQ tests. -/

namespace Sys2Proof.Machine

/-- A comparison's result as a register value: 1 or 0. -/
def flagWord (b : Bool) : Word := if b then 1 else 0

/-- `signed(a) < signed(b)` (41_alu_register.md R107; 00_scope.md R10). -/
def signedLess (a b : Word) : Bool := decide (a.toInt < b.toInt)

/-- `unsigned(a) < unsigned(b)` (41_alu_register.md R108; 00_scope.md R10). -/
def unsignedLess (a b : Word) : Bool := decide (a.toNat < b.toNat)

/-- BEQ's comparison of all 32 bits (44_control_transfer.md R152). -/
def wordsEqual (a b : Word) : Bool := a == b

end Sys2Proof.Machine
end

