-- ==== Sys2Proof/Machine/AluRegister.lean ====
section
/-! DEFINITION. The register ALU instructions (41_alu_register.md R100 to R108). -/

namespace Sys2Proof.Machine

/-- ADDU (R101): `x[rd] <- x[rs] + x[rt]`, modulo 2^32. -/
def execAddu (rd rs rt : RegIdx) (s : State) : Host.Outcome State Fault Refusal :=
  s.finish (.ok (.writes rd (s.reg rs + s.reg rt)))

/-- SUBU (R102): `x[rd] <- x[rs] - x[rt]`, modulo 2^32. -/
def execSubu (rd rs rt : RegIdx) (s : State) : Host.Outcome State Fault Refusal :=
  s.finish (.ok (.writes rd (s.reg rs - s.reg rt)))

/-- AND (R103): `x[rd] <- x[rs] & x[rt]`. -/
def execAnd (rd rs rt : RegIdx) (s : State) : Host.Outcome State Fault Refusal :=
  s.finish (.ok (.writes rd (s.reg rs &&& s.reg rt)))

/-- OR (R104): `x[rd] <- x[rs] | x[rt]`. -/
def execOr (rd rs rt : RegIdx) (s : State) : Host.Outcome State Fault Refusal :=
  s.finish (.ok (.writes rd (s.reg rs ||| s.reg rt)))

/-- XOR (R105): `x[rd] <- x[rs] ^ x[rt]`. -/
def execXor (rd rs rt : RegIdx) (s : State) : Host.Outcome State Fault Refusal :=
  s.finish (.ok (.writes rd (s.reg rs ^^^ s.reg rt)))

/-- NOR (R106): `x[rd] <- ~(x[rs] | x[rt])`. -/
def execNor (rd rs rt : RegIdx) (s : State) : Host.Outcome State Fault Refusal :=
  s.finish (.ok (.writes rd (~~~(s.reg rs ||| s.reg rt))))

/-- SLT (R107): `x[rd] <- (signed(x[rs]) < signed(x[rt])) ? 1 : 0`. -/
def execSlt (rd rs rt : RegIdx) (s : State) : Host.Outcome State Fault Refusal :=
  s.finish (.ok (.writes rd (flagWord (signedLess (s.reg rs) (s.reg rt)))))

/-- SLTU (R108): `x[rd] <- (unsigned(x[rs]) < unsigned(x[rt])) ? 1 : 0`. -/
def execSltu (rd rs rt : RegIdx) (s : State) : Host.Outcome State Fault Refusal :=
  s.finish (.ok (.writes rd (flagWord (unsignedLess (s.reg rs) (s.reg rt)))))

end Sys2Proof.Machine
end

