-- ==== Sys2Proof/Machine/ControlTransfer.lean ====
section
/-! DEFINITION. The control transfers (44_control_transfer.md R150 to R152) and what they do in a delay slot (R159, R160). -/

namespace Sys2Proof.Machine

/-- A J or BEQ with the effect `e` (R150), unless it is rejected in a delay slot (R160). -/
def State.transfer (s : State) (e : Effect) : Except Cause Effect :=
  match s.branchGuard with
  | .ok _    => .ok e
  | .error c => .error c

/-- J (R151): `branch((pc + 4)[31:28] || target || 0b00)`. -/
def execJ (target : Target26) (s : State) : Host.Outcome State Fault Refusal :=
  s.finish (s.transfer (.branchesTo (jumpTarget s.pc target)))

/-- BEQ (R152): `branch(pc + 4 + (sext_32(imm) << 2))` when `x[rs] = x[rt]`, otherwise no effect. -/
def execBeq (rs rt : RegIdx) (imm : Imm16) (s : State) : Host.Outcome State Fault Refusal :=
  s.finish (s.transfer (if wordsEqual (s.reg rs) (s.reg rt) then .branchesTo (branchTarget s.pc imm) else .nothing))

end Sys2Proof.Machine
end

