-- ==== Sys2Proof/Machine/LoadStore.lean ====
section
/-! DEFINITION. The loads and stores (43_load_store.md R130 to R140). No access has an alignment rule (20_memory.md R48). -/

namespace Sys2Proof.Machine

/-- A load of width `w` with extension `ext` (R131): the read comes before the register write, and happens for `rt = 0` too. -/
def State.load (s : State) (w : AccessWidth) (ext : Word → Word) (rt rs : RegIdx) (imm : Imm16) : Except Cause Effect :=
  match s.memRead (s.effectiveAddress rs imm) w .load with
  | .ok v    => .ok (.writes rt (ext v))
  | .error c => .error c

/-- A store of width `w` (R132): out of bounds it raises and writes no byte (20_memory.md R44). -/
def State.store (s : State) (w : AccessWidth) (rt rs : RegIdx) (imm : Imm16) : Except Cause Effect :=
  let ea := s.effectiveAddress rs imm
  if s.inBounds ea w then .ok (.stores ea w (s.reg rt)) else .error (.outOfBoundsAccess ea w .store)

/-- SB (R133): stores `x[rt][7:0]`. -/
def execSb (rt rs : RegIdx) (imm : Imm16) (s : State) : Host.Outcome State Fault Refusal := s.finish (s.store .byte rt rs imm)

/-- SH (R134): stores `x[rt][15:0]` in `BYTE_ORDER`. -/
def execSh (rt rs : RegIdx) (imm : Imm16) (s : State) : Host.Outcome State Fault Refusal := s.finish (s.store .half rt rs imm)

/-- SW (R135): stores `x[rt]` in `BYTE_ORDER`. -/
def execSw (rt rs : RegIdx) (imm : Imm16) (s : State) : Host.Outcome State Fault Refusal := s.finish (s.store .word rt rs imm)

/-- LB (R136): `x[rt] <- sext_32(MemRead(ea, 1))`. -/
def execLb (rt rs : RegIdx) (imm : Imm16) (s : State) : Host.Outcome State Fault Refusal :=
  s.finish (s.load .byte (signExtendFrom .byte) rt rs imm)

/-- LBU (R137): `x[rt] <- zext_32(MemRead(ea, 1))`. -/
def execLbu (rt rs : RegIdx) (imm : Imm16) (s : State) : Host.Outcome State Fault Refusal :=
  s.finish (s.load .byte (zeroExtendFrom .byte) rt rs imm)

/-- LH (R138): `x[rt] <- sext_32(MemRead(ea, 2))`. -/
def execLh (rt rs : RegIdx) (imm : Imm16) (s : State) : Host.Outcome State Fault Refusal :=
  s.finish (s.load .half (signExtendFrom .half) rt rs imm)

/-- LHU (R139): `x[rt] <- zext_32(MemRead(ea, 2))`. -/
def execLhu (rt rs : RegIdx) (imm : Imm16) (s : State) : Host.Outcome State Fault Refusal :=
  s.finish (s.load .half (zeroExtendFrom .half) rt rs imm)

/-- LW (R140): `x[rt] <- MemRead(ea, 4)`, "unmodified". -/
def execLw (rt rs : RegIdx) (imm : Imm16) (s : State) : Host.Outcome State Fault Refusal := s.finish (s.load .word id rt rs imm)

end Sys2Proof.Machine
end

