-- ==== Sys2Proof/Machine/Shifts.lean ====
section
/-! DEFINITION. The shift instructions (42_shifts.md R114 to R120). The value shifted is `x[rt]`; the amount is 0..31. -/

namespace Sys2Proof.Machine

/-- SLL (R115): `x[rd] <- x[rt] << shamt`. -/
def execSll (rd rt : RegIdx) (shamt : Shamt) (s : State) : Host.Outcome State Fault Refusal :=
  s.finish (.ok (.writes rd (s.reg rt <<< shamt.toNat)))

/-- SRL (R116): `x[rd] <- x[rt] >>u shamt`. -/
def execSrl (rd rt : RegIdx) (shamt : Shamt) (s : State) : Host.Outcome State Fault Refusal :=
  s.finish (.ok (.writes rd (s.reg rt >>> shamt.toNat)))

/-- SRA (R117): `x[rd] <- x[rt] >>s shamt`. -/
def execSra (rd rt : RegIdx) (shamt : Shamt) (s : State) : Host.Outcome State Fault Refusal :=
  s.finish (.ok (.writes rd ((s.reg rt).sshiftRight shamt.toNat)))

/-- SLLV (R118): `x[rd] <- x[rt] << x[rs][4:0]`. -/
def execSllv (rd rt rs : RegIdx) (s : State) : Host.Outcome State Fault Refusal :=
  s.finish (.ok (.writes rd (s.reg rt <<< (shiftAmount (s.reg rs)).toNat)))

/-- SRLV (R119): `x[rd] <- x[rt] >>u x[rs][4:0]`. -/
def execSrlv (rd rt rs : RegIdx) (s : State) : Host.Outcome State Fault Refusal :=
  s.finish (.ok (.writes rd (s.reg rt >>> (shiftAmount (s.reg rs)).toNat)))

/-- SRAV (R120): `x[rd] <- x[rt] >>s x[rs][4:0]`. -/
def execSrav (rd rt rs : RegIdx) (s : State) : Host.Outcome State Fault Refusal :=
  s.finish (.ok (.writes rd ((s.reg rt).sshiftRight (shiftAmount (s.reg rs)).toNat)))

end Sys2Proof.Machine
end

