-- ==== Sys2Proof/Machine/Step.lean ====
section
/-! DEFINITION. One step (44_control_transfer.md R154) and the placing of a word where it is fetched. -/

namespace Sys2Proof.Machine

/-- `step()`: one instruction, run to completion. A fatal condition is recorded in `status` and gives the next state; a stopped core
halts (60_exceptions.md R174, R175; log 6). -/
def step (s : State) : Host.Outcome State Fault Refusal :=
  match s.status with
  | .stopped f => .fault (.halted f)
  | .running   =>
    match s.fetchDecode with
    | .error (c, w) => .next (s.takeFatal c w)
    | .ok (w, i)    => s.catchFatal w (exec i s)

/-- The state with an instruction of spec/opcode_table.json, numbered as the table numbers its bits, stored where `step` fetches next:
at `pc`, in the core's byte order (20_memory.md R46; log 4). -/
def State.withFetchWord (s : State) (nbits w : Nat) : State := s.storeBytes s.pc .word (BitVec.ofNat 32 (w % 2 ^ nbits))

end Sys2Proof.Machine
end

