-- ==== Sys2Proof/Assembly.lean ====
section
/-! DEFINITION. Assembly as the spec describes it: operand order (30_encoding.md R79), operand ranges (R83), register names (R80) and
pseudo-instructions (R81). The core never reads assembly (R78); these definitions say which `Instr` a source line stands for. -/

namespace Sys2Proof

/-- A source line: a mnemonic and its operands as numbers, in the order of 30_encoding.md R79. A label is the address it names. -/
structure SourceLine where
  op       : Mnemonic
  operands : List Int
deriving DecidableEq, Repr

/-- Three registers, in the order written. -/
def threeRegOperands (mk : RegIdx → RegIdx → RegIdx → Instr) (a b c : Int) : Option Instr := do
  return mk (← regOperand a) (← regOperand b) (← regOperand c)

/-- `rd, rt, shamt`. -/
def shiftOperands (mk : RegIdx → RegIdx → Shamt → Instr) (rd rt sa : Int) : Option Instr := do
  return mk (← regOperand rd) (← regOperand rt) (← shamtOperand sa)

/-- `rt, rs, imm` with a zero-extended immediate. -/
def logicalOperands (mk : RegIdx → RegIdx → Imm16 → Instr) (rt rs imm : Int) : Option Instr := do
  return mk (← regOperand rt) (← regOperand rs) (← unsignedOperand imm)

/-- `rt, rs, imm` with a sign-extended immediate; a load or store writes it `rt, offset(rs)`. -/
def signedOperands (mk : RegIdx → RegIdx → Imm16 → Instr) (rt rs imm : Int) : Option Instr := do
  return mk (← regOperand rt) (← regOperand rs) (← signedOperand imm)

/-- The instruction a source line at address `pc` stands for, or none when it has the wrong number of operands or one is out of its
range (30_encoding.md R79, R83). -/
def SourceLine.assemble (pc : Word) (l : SourceLine) : Option Instr :=
  match l.op, l.operands with
  | .lui,   [rt, imm]       => do return .lui (← regOperand rt) (← unsignedOperand imm)
  | .ori,   [rt, rs, imm]   => logicalOperands .ori rt rs imm
  | .andi,  [rt, rs, imm]   => logicalOperands .andi rt rs imm
  | .xori,  [rt, rs, imm]   => logicalOperands .xori rt rs imm
  | .addiu, [rt, rs, imm]   => signedOperands .addiu rt rs imm
  | .addu,  [rd, rs, rt]    => threeRegOperands .addu rd rs rt
  | .subu,  [rd, rs, rt]    => threeRegOperands .subu rd rs rt
  | .and,   [rd, rs, rt]    => threeRegOperands .and rd rs rt
  | .or,    [rd, rs, rt]    => threeRegOperands .or rd rs rt
  | .xor,   [rd, rs, rt]    => threeRegOperands .xor rd rs rt
  | .nor,   [rd, rs, rt]    => threeRegOperands .nor rd rs rt
  | .slt,   [rd, rs, rt]    => threeRegOperands .slt rd rs rt
  | .sltu,  [rd, rs, rt]    => threeRegOperands .sltu rd rs rt
  | .sll,   [rd, rt, sa]    => shiftOperands .sll rd rt sa
  | .srl,   [rd, rt, sa]    => shiftOperands .srl rd rt sa
  | .sra,   [rd, rt, sa]    => shiftOperands .sra rd rt sa
  | .sllv,  [rd, rt, rs]    => threeRegOperands .sllv rd rt rs
  | .srlv,  [rd, rt, rs]    => threeRegOperands .srlv rd rt rs
  | .srav,  [rd, rt, rs]    => threeRegOperands .srav rd rt rs
  | .lb,    [rt, off, rs]   => signedOperands .lb rt rs off
  | .lbu,   [rt, off, rs]   => signedOperands .lbu rt rs off
  | .lh,    [rt, off, rs]   => signedOperands .lh rt rs off
  | .lhu,   [rt, off, rs]   => signedOperands .lhu rt rs off
  | .lw,    [rt, off, rs]   => signedOperands .lw rt rs off
  | .sb,    [rt, off, rs]   => signedOperands .sb rt rs off
  | .sh,    [rt, off, rs]   => signedOperands .sh rt rs off
  | .sw,    [rt, off, rs]   => signedOperands .sw rt rs off
  | .j,     [label]         => do return .j (← jumpOperand pc label)
  | .beq,   [rs, rt, label] => do return .beq (← regOperand rs) (← regOperand rt) (← branchOperand pc label)
  | _,      _               => none

/-- Whether a source line at `pc` stands for an instruction. -/
def SourceLine.wellFormed (pc : Word) (l : SourceLine) : Bool := (l.assemble pc).isSome

/-- The conventional register names, by number (30_encoding.md R80). -/
def registerNames : List String :=
  ["$zero", "$at", "$v0", "$v1", "$a0", "$a1", "$a2", "$a3", "$t0", "$t1", "$t2", "$t3", "$t4", "$t5", "$t6", "$t7"] ++
  ["$s0", "$s1", "$s2", "$s3", "$s4", "$s5", "$s6", "$s7", "$t8", "$t9", "$k0", "$k1", "$gp", "$sp", "$fp", "$ra"]

/-- The register a conventional name stands for (30_encoding.md R80; `$s8` is a second name of `$fp`). -/
def registerNamed (name : String) : Option RegIdx :=
  (List.finRange 32).find? fun r => registerNames[r.val]? == some name || (r == 30 && name == "$s8")

/-- `nop` (30_encoding.md R72, R81). -/
def nop : Instr := .sll 0 0 0

/-- `move rd, rs`, by ADDU (30_encoding.md R81). -/
def moveByAddu (rd rs : RegIdx) : Instr := .addu rd rs 0
/-- `move rd, rs`, by OR (30_encoding.md R81). -/
def moveByOr (rd rs : RegIdx) : Instr := .or rd rs 0

/-- `li rt, v`, the shortest expansion (30_encoding.md R81). -/
def loadImmediate (rt : RegIdx) (v : Word) : List Instr :=
  if -32768 ≤ v.toInt ∧ v.toInt ≤ 32767 then [.addiu rt 0 (v.extractLsb' 0 16)]
  else if v.toNat < 0x10000 then [.ori rt 0 (v.extractLsb' 0 16)]
  else if v.extractLsb' 0 16 = 0#16 then [.lui rt (v.extractLsb' 16 16)]
  else [.lui rt (v.extractLsb' 16 16), .ori rt rt (v.extractLsb' 0 16)]

/-- `%hi(sym)` beside `addiu`: `(sym + 0x8000)[31:16]` (30_encoding.md R81). -/
def hiPart (sym : Word) : Imm16 := (sym + 0x8000).extractLsb' 16 16
/-- `%lo(sym)`: `sym[15:0]`. -/
def loPart (sym : Word) : Imm16 := sym.extractLsb' 0 16
/-- `la rt, sym` by LUI and ADDIU (30_encoding.md R81). -/
def loadAddress (rt : RegIdx) (sym : Word) : List Instr := [.lui rt (hiPart sym), .addiu rt rt (loPart sym)]

/-- `la rt, sym` by LUI and ORI (30_encoding.md R81). -/
def loadAddressByOri (rt : RegIdx) (sym : Word) : List Instr := [.lui rt (sym.extractLsb' 16 16), .ori rt rt (loPart sym)]

/-- `b label`, with the offset field of its BEQ (30_encoding.md R81). -/
def branchAlways (imm : Imm16) : Instr := .beq 0 0 imm
/-- `beqz rs, label`. -/
def branchIfZero (rs : RegIdx) (imm : Imm16) : Instr := .beq rs 0 imm
/-- `negu rd, rs`. -/
def negate (rd rs : RegIdx) : Instr := .subu rd 0 rs
/-- `not rd, rs`. -/
def complement (rd rs : RegIdx) : Instr := .nor rd rs 0

end Sys2Proof
end

