-- ==== Sys2Proof/Machine/Construct.lean ====
section
/-! DEFINITION. Construction, the core's only reset (70_reset_and_hazards.md R200 to R202). -/

namespace Sys2Proof.Machine

/-- Whether construction accepts a configuration (70_reset_and_hazards.md R201; the sets of R8 for `BYTE_ORDER` and
`DS_BRANCH_POLICY` are their types). -/
def configAccepted (c : Config) : Bool :=
  0x201 ≤ c.memSize && c.memSize ≤ 2 ^ 32 && c.imageBase.toNat + c.image.length ≤ c.memSize && c.entry.toNat % 4 == 0

/-- `construct(...)` (70_reset_and_hazards.md R200): the state after reset, or a refusal, which leaves no core. -/
def construct (c : Config) : Option State :=
  if configAccepted c then
    some { config := c, x := Vector.replicate 32 0, pc := c.entry, control := .normal,
           mem := Memory.writeBytes [] c.imageBase.toNat c.image, status := .running }
  else none

end Sys2Proof.Machine
end

