-- ==== Sys2Proof/Machine/HostInterface.lean ====
section
/-! DEFINITION. What the host (the harness) does with a core: step it, inspect it, and run it under a step ceiling
(60_exceptions.md R185 to R189). -/

namespace Sys2Proof.Machine

/-- The status `step()` returns (60_exceptions.md R185): Continue, Trapped(f) or Halted. -/
inductive StepStatus where
  | continued
  | trapped (f : FaultRecord)
  | halted
deriving DecidableEq, Repr

/-- One `step()` of the host: the status, `delay_pending`, and the state after it (44_control_transfer.md R154, 60_exceptions.md
R185). A halted core keeps its state (R175). No step is refused; that branch keeps the function total. -/
def hostStep (s : State) : (StepStatus × Bool) × State :=
  match step s with
  | .next t =>
    match t.status with
    | .running   => ((.continued, t.inDelaySlot), t)
    | .stopped f => ((.trapped f, t.inDelaySlot), t)
  | .fault _   => ((.halted, s.inDelaySlot), s)
  | .refused _ => ((.halted, s.inDelaySlot), s)

/-- Inspecting a register (60_exceptions.md R186). -/
def inspectReg (s : State) (r : RegIdx) : Word := s.reg r

/-- Inspecting `pc` (60_exceptions.md R186). -/
def inspectPc (s : State) : Word := s.pc

/-- Inspecting the delay-slot state (60_exceptions.md R186). -/
def inspectDelaySlot (s : State) : Option Word × Bool := (s.pendingTarget, s.inDelaySlot)

/-- Inspecting `n` bytes from an address: only inside `0 .. MEM_SIZE-1`, and never a core access (60_exceptions.md R187). -/
def inspectMem (s : State) (a n : Nat) : Option (List Byte) :=
  if a + n ≤ s.config.memSize then some (s.mem.readBytes a n) else none

/-- Whether an instruction at `pc` is an always-taken transfer to `pc` itself (60_exceptions.md R189(b)). -/
def loopsTo (pc : Word) : Instr → Bool
  | .j target      => jumpTarget pc target == pc
  | .beq rs rt imm => rs == rt && imm == 0xFFFF
  | .lui _ _ | .ori _ _ _ | .addiu _ _ _ | .andi _ _ _ | .xori _ _ _
  | .addu _ _ _ | .subu _ _ _ | .and _ _ _ | .or _ _ _ | .xor _ _ _ | .nor _ _ _ | .slt _ _ _ | .sltu _ _ _
  | .sll _ _ _ | .srl _ _ _ | .sra _ _ _ | .sllv _ _ _ | .srlv _ _ _ | .srav _ _ _
  | .sb _ _ _ | .sh _ _ _ | .sw _ _ _ | .lb _ _ _ | .lbu _ _ _ | .lh _ _ _ | .lhu _ _ _ | .lw _ _ _ => false

/-- Whether the run has reached the self-loop at its pc (60_exceptions.md R189(b)). -/
def State.atSelfLoop (s : State) : Bool :=
  s.status == .running && !s.inDelaySlot &&
    match s.fetchDecode with
    | .ok (_, i) => loopsTo s.pc i
    | .error _   => false

/-- How a run ends (60_exceptions.md R189). -/
inductive RunEnd where
  | trapped (f : FaultRecord)
  | selfLoop (a : Word)
  | stepBudgetExceeded
deriving DecidableEq, Repr

/-- A run under a step ceiling (60_exceptions.md R188, R189): how it ended and the state it ended in. The harness looks for the
self-loop before each step, and keeps the count. -/
def harnessRun : Nat → State → RunEnd × State
  | ceiling, s =>
    match s.status with
    | .stopped f => (.trapped f, s)
    | .running   =>
      if s.atSelfLoop then (.selfLoop s.pc, s)
      else match ceiling with
        | 0     => (.stepBudgetExceeded, s)
        | n + 1 => harnessRun n (hostStep s).2

end Sys2Proof.Machine
end

