-- ==== Sys2Proof/Safety.lean ====
section
/-! DEFINITION. The terms in which claims are made: the invariant of the core, what a safe run is, and the frames of the three kinds
of instruction (register writes, stores, control transfers), each saying what changes and that nothing else does. -/

namespace Sys2Proof.Machine

/-- A pending target is a multiple of 4 (44_control_transfer.md R153). -/
def Control.aligned : Control → Bool
  | .normal             => true
  | .delaySlotPending t => t.toNat % 4 == 0

/-- A stopped core still has the pc and the pending target its record holds (60_exceptions.md R171, R173, R175). -/
def State.recordMatches (s : State) : Bool :=
  match s.status with
  | .running   => true
  | .stopped f => f.pc == s.pc && f.pending == s.pendingTarget

/-- The invariant: the configuration is one that construction accepts, the storage of register 0 holds 0 (10_state.md R21), pc and the
pending target are word-aligned (R25), memory has its canonical form and lists provisioned addresses only (R33), and a stop record
matches the state it stopped in. -/
abbrev State.Inv (s : State) : Prop :=
  configAccepted s.config = true ∧ s.x[0] = 0 ∧ s.pc.toNat % 4 = 0 ∧ s.control.aligned = true ∧
    s.mem.wf ∧ (∀ c ∈ s.mem, c.1 < s.config.memSize) ∧ s.recordMatches = true

/-- A safe run of `n` steps: the core is running at its end, so no step of it met a fatal condition (60_exceptions.md R175: a stopped
state is a fault, never a successful final state). -/
def SafeRun (n : Nat) (s : State) : Prop := ∃ t, Sys2Proof.core.run n s = .next t ∧ t.status = .running

/-- `pc` and the delay-slot state after an instruction that takes no branch: the next address, or out of a delay slot the pending
target (44_control_transfer.md R157). -/
def AdvancesPast (s t : State) : Prop :=
  match s.control with
  | .normal             => t.pc = s.pc + 4 ∧ t.control = .normal
  | .delaySlotPending p => t.pc = p ∧ t.control = .normal

/-- Every register reads as before. -/
def SameRegisters (s t : State) : Prop := ∀ q, t.reg q = s.reg q

/-- Every byte of memory reads as before. -/
def SameMemory (s t : State) : Prop := ∀ a, t.mem.read a = s.mem.read a

/-- The constants of the instance and the run status are as before. -/
def SameInstance (s t : State) : Prop := t.config = s.config ∧ t.status = s.status

/-- Every register reads as before but `r`, which reads `v`; register 0 reads 0 whatever is written to it (10_state.md R21). -/
def OnlyRegister (s t : State) (r : RegIdx) (v : Word) : Prop :=
  ∀ q, t.reg q = if q = r ∧ r ≠ 0 then v else s.reg q

/-- The whole change an instruction with one destination register makes: the register, and the advance. -/
def WritesRegister (s t : State) (r : RegIdx) (v : Word) : Prop :=
  OnlyRegister s t r v ∧ SameMemory s t ∧ SameInstance s t ∧ AdvancesPast s t

/-- Every byte of memory reads as before but the bytes `bs` from address `a` on. -/
def OnlyBytes (s t : State) (a : Nat) (bs : List Byte) : Prop :=
  (∀ i (h : i < bs.length), t.mem.read (a + i) = bs[i]) ∧ ∀ c, c < a ∨ a + bs.length ≤ c → t.mem.read c = s.mem.read c

/-- The whole change a store makes: its bytes, and the advance. -/
def StoresBytes (s t : State) (a : Nat) (bs : List Byte) : Prop :=
  OnlyBytes s t a bs ∧ SameRegisters s t ∧ SameInstance s t ∧ AdvancesPast s t

/-- Registers, memory, configuration and status as before: all an instruction leaves that only transfers control. -/
def OnlyControl (s t : State) : Prop := SameRegisters s t ∧ SameMemory s t ∧ SameInstance s t

/-- Whether an instruction is a J or BEQ (44_control_transfer.md R150). -/
def isTransfer : Instr → Bool
  | .j _ | .beq _ _ _ => true
  | .lui _ _ | .ori _ _ _ | .addiu _ _ _ | .andi _ _ _ | .xori _ _ _
  | .addu _ _ _ | .subu _ _ _ | .and _ _ _ | .or _ _ _ | .xor _ _ _ | .nor _ _ _ | .slt _ _ _ | .sltu _ _ _
  | .sll _ _ _ | .srl _ _ _ | .sra _ _ _ | .sllv _ _ _ | .srlv _ _ _ | .srav _ _ _
  | .sb _ _ _ | .sh _ _ _ | .sw _ _ _ | .lb _ _ _ | .lbu _ _ _ | .lh _ _ _ | .lhu _ _ _ | .lw _ _ _ => false

/-- The registers an instruction reads (10_state.md R22). -/
def registersRead : Instr → List RegIdx
  | .lui _ _                                                                                 => []
  | .ori _ rs _ | .andi _ rs _ | .xori _ rs _ | .addiu _ rs _                                => [rs]
  | .addu _ rs rt | .subu _ rs rt | .and _ rs rt | .or _ rs rt | .xor _ rs rt | .nor _ rs rt => [rs, rt]
  | .slt _ rs rt | .sltu _ rs rt                                                             => [rs, rt]
  | .sll _ rt _ | .srl _ rt _ | .sra _ rt _                                                  => [rt]
  | .sllv _ rt rs | .srlv _ rt rs | .srav _ rt rs                                            => [rt, rs]
  | .lb _ rs _ | .lbu _ rs _ | .lh _ rs _ | .lhu _ rs _ | .lw _ rs _                         => [rs]
  | .sb rt rs _ | .sh rt rs _ | .sw rt rs _                                                  => [rs, rt]
  | .j _                                                                                     => []
  | .beq rs rt _                                                                             => [rs, rt]

/-- The register an instruction writes, if it writes one (10_state.md R22). -/
def registerWritten : Instr → Option RegIdx
  | .lui rt _ | .ori rt _ _ | .andi rt _ _ | .xori rt _ _ | .addiu rt _ _                            => some rt
  | .addu rd _ _ | .subu rd _ _ | .and rd _ _ | .or rd _ _ | .xor rd _ _ | .nor rd _ _               => some rd
  | .slt rd _ _ | .sltu rd _ _                                                                       => some rd
  | .sll rd _ _ | .srl rd _ _ | .sra rd _ _ | .sllv rd _ _ | .srlv rd _ _ | .srav rd _ _             => some rd
  | .lb rt _ _ | .lbu rt _ _ | .lh rt _ _ | .lhu rt _ _ | .lw rt _ _                                 => some rt
  | .sb _ _ _ | .sh _ _ _ | .sw _ _ _ | .j _ | .beq _ _ _                                            => none

/-- The data access of a load or store, its width, its kind, its base register and its offset (20_memory.md R50). -/
def dataAccess : Instr → Option (AccessWidth × AccessKind × RegIdx × Imm16)
  | .sb _ rs imm                  => some (.byte, .store, rs, imm)
  | .sh _ rs imm                  => some (.half, .store, rs, imm)
  | .sw _ rs imm                  => some (.word, .store, rs, imm)
  | .lb _ rs imm | .lbu _ rs imm  => some (.byte, .load, rs, imm)
  | .lh _ rs imm | .lhu _ rs imm  => some (.half, .load, rs, imm)
  | .lw _ rs imm                  => some (.word, .load, rs, imm)
  | .lui _ _ | .ori _ _ _ | .addiu _ _ _ | .andi _ _ _ | .xori _ _ _
  | .addu _ _ _ | .subu _ _ _ | .and _ _ _ | .or _ _ _ | .xor _ _ _ | .nor _ _ _ | .slt _ _ _ | .sltu _ _ _
  | .sll _ _ _ | .srl _ _ _ | .sra _ _ _ | .sllv _ _ _ | .srlv _ _ _ | .srav _ _ _
  | .j _ | .beq _ _ _ => none

/-- Whether an instruction is a store (43_load_store.md R132). -/
def isStore (i : Instr) : Bool :=
  match dataAccess i with
  | some (_, .store, _, _) => true
  | some (_, .load, _, _) | some (_, .fetch, _, _) | none => false

/-- The target of the branch an instruction takes in a state, if it takes one (44_control_transfer.md R151, R152; "taken", 00_scope.md
R19). -/
def takenTarget (s : State) : Instr → Option Word
  | .j target      => some (jumpTarget s.pc target)
  | .beq rs rt imm => if s.reg rs = s.reg rt then some (branchTarget s.pc imm) else none
  | .lui _ _ | .ori _ _ _ | .addiu _ _ _ | .andi _ _ _ | .xori _ _ _
  | .addu _ _ _ | .subu _ _ _ | .and _ _ _ | .or _ _ _ | .xor _ _ _ | .nor _ _ _ | .slt _ _ _ | .sltu _ _ _
  | .sll _ _ _ | .srl _ _ _ | .sra _ _ _ | .sllv _ _ _ | .srlv _ _ _ | .srav _ _ _
  | .sb _ _ _ | .sh _ _ _ | .sw _ _ _ | .lb _ _ _ | .lbu _ _ _ | .lh _ _ _ | .lhu _ _ _ | .lw _ _ _ => none

/-- The halfword at an address, read off its two bytes in the core's byte order (20_memory.md R42). -/
def halfAt (s : State) (a : Nat) : BitVec 16 :=
  match s.config.byteOrder with
  | .little => s.mem.read (a + 1) ++ s.mem.read a
  | .big    => s.mem.read a ++ s.mem.read (a + 1)

/-- The word at an address, read off its four bytes in the core's byte order (20_memory.md R42). -/
def wordAt (s : State) (a : Nat) : Word :=
  match s.config.byteOrder with
  | .little => s.mem.read (a + 3) ++ s.mem.read (a + 2) ++ s.mem.read (a + 1) ++ s.mem.read a
  | .big    => s.mem.read a ++ s.mem.read (a + 1) ++ s.mem.read (a + 2) ++ s.mem.read (a + 3)

/-- The bytes of a halfword in address order (20_memory.md R43). -/
def halfBytes (s : State) (v : Word) : List Byte :=
  match s.config.byteOrder with
  | .little => [v.extractLsb' 0 8, v.extractLsb' 8 8]
  | .big    => [v.extractLsb' 8 8, v.extractLsb' 0 8]

/-- The bytes of a word in address order (20_memory.md R43). -/
def wordBytes (s : State) (v : Word) : List Byte :=
  match s.config.byteOrder with
  | .little => [v.extractLsb' 0 8, v.extractLsb' 8 8, v.extractLsb' 16 8, v.extractLsb' 24 8]
  | .big    => [v.extractLsb' 24 8, v.extractLsb' 16 8, v.extractLsb' 8 8, v.extractLsb' 0 8]

/-- The instruction at `pc`: the four bytes there are provisioned and decode to `i` (44_control_transfer.md R155). -/
def InstructionAtPc (s : State) (i : Instr) : Prop :=
  s.pc.toNat + 4 ≤ s.config.memSize ∧ decode (wordAt s s.pc.toNat) = .ok i

/-- The words a mask and a match pick out are exactly those that decode to what `mk` makes of the word's fields. -/
def EncodedBy (mask pattern : Word) (mk : Word → Instr) : Prop := ∀ w, w &&& mask = pattern ↔ decode w = .ok (mk w)

/-- `rt`, `rs` and `imm` of an I-format word: `w[20:16]`, `w[25:21]`, `w[15:0]` (30_encoding.md R61, R63). -/
def ofRtRsImm (mk : RegIdx → RegIdx → Imm16 → Instr) (w : Word) : Instr :=
  mk (regOf (w.extractLsb' 16 5)) (regOf (w.extractLsb' 21 5)) (w.extractLsb' 0 16)

/-- `rd`, `rs` and `rt` of an R-format word: `w[15:11]`, `w[25:21]`, `w[20:16]` (30_encoding.md R61, R62). -/
def ofRdRsRt (mk : RegIdx → RegIdx → RegIdx → Instr) (w : Word) : Instr :=
  mk (regOf (w.extractLsb' 11 5)) (regOf (w.extractLsb' 21 5)) (regOf (w.extractLsb' 16 5))

/-- `rd`, `rt` and `rs` of an R-format word. -/
def ofRdRtRs (mk : RegIdx → RegIdx → RegIdx → Instr) (w : Word) : Instr :=
  mk (regOf (w.extractLsb' 11 5)) (regOf (w.extractLsb' 16 5)) (regOf (w.extractLsb' 21 5))

/-- `rd`, `rt` and `shamt` of an R-format word: `shamt` is `w[10:6]` (30_encoding.md R61, R62). -/
def ofRdRtShamt (mk : RegIdx → RegIdx → Shamt → Instr) (w : Word) : Instr :=
  mk (regOf (w.extractLsb' 11 5)) (regOf (w.extractLsb' 16 5)) (w.extractLsb' 6 5)

/-- Instructions one after another, each on the state the one before it left. -/
def execAll : List Instr → State → Host.Outcome State Fault Refusal
  | [],      s => .next s
  | i :: is, s =>
    match exec i s with
    | .next t    => execAll is t
    | .fault r   => .fault r
    | .refused r => .refused r

end Sys2Proof.Machine
end

