-- ==== Sys2Proof/Certificates/Slice0/Obligations.lean ====
section
/-! DEFINITION. The statements for the provers, from the numbered rules of spec/. Addresses are computed by the model's own
`State.effectiveAddress`; `OperandsAreBuilt` says what that is. Values are stated as numbers or bit by bit, not by the
operations the meanings use. -/

open Sys2Proof Sys2Proof.Machine

/-! Construction and reset -/

/-- R34, R200: an accepted configuration gives the reset state, every piece of state at the value of R34. -/
def Obligations.ConstructionGivesResetValues : Prop :=
  ∀ c : Config, configAccepted c = true → ∃ s, construct c = some s ∧ s.config = c ∧ (∀ r, s.reg r = 0) ∧
    s.pc = c.entry ∧ s.pendingTarget = none ∧ s.inDelaySlot = false ∧ s.status = .running ∧
    (∀ i (h : i < c.image.length), s.mem.read (c.imageBase.toNat + i) = c.image[i]) ∧
    (∀ a, a < c.imageBase.toNat ∨ c.imageBase.toNat + c.image.length ≤ a → s.mem.read a = 0)

/-- R201: which configurations construction refuses, and that an entry outside the provisioned range is not refused: the first step
then raises OutOfBoundsAccess with kind fetch. -/
def Obligations.ConstructionRefusesExactly : Prop :=
  (∀ c : Config, construct c = none ↔
    c.memSize < 0x201 ∨ 2 ^ 32 < c.memSize ∨ c.memSize < c.imageBase.toNat + c.image.length ∨ c.entry.toNat % 4 ≠ 0) ∧
  ∀ c s, construct c = some s → c.memSize < c.entry.toNat + 4 →
    ∃ f, step s = .next { s with status := .stopped f } ∧ f.cause = .outOfBoundsAccess c.entry .word .fetch

/-- The model's own choice of parameters (logs 3 and 4: MEM_SIZE 0x1000, empty image; the others are R8's defaults): `State.reset`
is the construction from them. -/
def Obligations.ResetIsTheDefaultConstruction : Prop :=
  construct defaultConfig = some State.reset ∧ defaultConfig.memSize = 0x1000 ∧ defaultConfig.byteOrder = .little ∧
    defaultConfig.imageBase = 0 ∧ defaultConfig.entry = defaultConfig.imageBase ∧ defaultConfig.branchPolicy = .reject ∧
    defaultConfig.image = []

/-- The invariant holds in `State.reset` (its parameters are the model's choice, logs 3 and 4). -/
def Obligations.ResetMeetsTheInvariant : Prop := State.reset.Inv

/-- The invariant holds after every construction. -/
def Obligations.ConstructionMeetsTheInvariant : Prop := ∀ c s, construct c = some s → s.Inv

/-- Every step keeps the invariant: the accepted configuration, register 0's storage, aligned pc and pending target, canonical memory
inside the provisioned range, and a stop record that matches the state. -/
def Obligations.StepKeepsTheInvariant : Prop := ∀ s t : State, s.Inv → step s = .next t → t.Inv

/-! Registers -/

/-- R21: register 0 reads 0, writes to it are discarded, no instruction changes it, and an instruction with destination 0 still runs in
full: its memory access can fault, and otherwise only its register write is dropped. -/
def Obligations.RegisterZeroIsHardWired : Prop :=
  (∀ s : State, s.reg 0 = 0) ∧ (∀ (s : State) v, s.writeReg 0 v = s) ∧
  (∀ i s t, exec i s = .next t → t.reg 0 = 0) ∧
  (∀ i s t, registerWritten i = some 0 → exec i s = .next t → SameRegisters s t ∧ SameMemory s t ∧ AdvancesPast s t) ∧
  (∀ i s w rs imm, registerWritten i = some 0 → dataAccess i = some (w, .load, rs, imm) →
    s.config.memSize < (s.effectiveAddress rs imm).toNat + w.bytes →
    exec i s = .fault (.fatal (.outOfBoundsAccess (s.effectiveAddress rs imm) w .load)))

/-- R22: an instruction reads no register but its sources and writes none but its destination. Two states that agree on everything but
registers the instruction does not read end alike, with the same value in the destination. -/
def Obligations.RegistersReadAndWritten : Prop :=
  ∀ i s u, (∃ x, u = { s with x := x }) → (∀ r ∈ registersRead i, u.reg r = s.reg r) →
    (∀ t, exec i s = .next t → ∃ v, exec i u = .next v ∧ v.pc = t.pc ∧ v.control = t.control ∧ v.mem = t.mem ∧
      v.config = t.config ∧ v.status = t.status ∧
      ∀ q, (registerWritten i = some q → v.reg q = t.reg q) ∧
        (registerWritten i ≠ some q → t.reg q = s.reg q ∧ v.reg q = u.reg q)) ∧
    (∀ f, exec i s = .fault f → exec i u = .fault f)

/-! Encoding -/

/-- Decoding an encoded instruction gives it back, with every operand at every value. -/
def Obligations.DecodeOfEncode : Prop := ∀ i, decode (encode i) = .ok i

/-- Every word that decodes is the encoding of what it decodes to: no two words mean one instruction (R69's strict check). -/
def Obligations.EncodeOfDecode : Prop := ∀ w i, decode w = .ok i → encode i = w

/-- R71: the rows of the opcode table do not overlap, and a word decodes to an instruction of a name exactly when it belongs to that
name's row; every other word is rejected. -/
def Obligations.DecodeIsTheOpcodeTable : Prop :=
  (∀ w (m : Mnemonic), m.row.admits w = true ↔ ∃ i, decode w = .ok i ∧ i.mnemonic = m) ∧
  (∀ w (m k : Mnemonic), m.row.admits w = true → k.row.admits w = true → m = k) ∧
  (∀ w, (∀ m : Mnemonic, m.row.admits w = false) ↔ ∃ e, decode w = .error e)

/-- R75: a word whose opcode, or whose function code under opcode 0, stands in no entry of the maps is rejected, and so is one of the
maps' codes with a must-be-zero field that is not zero (R69); a step that fetches a rejected word stops with UnsupportedInstruction and
changes nothing else. -/
def Obligations.WordsOutsideTheTableStopTheCore : Prop :=
  (∀ w : Word, w.extractLsb' 26 6 ∉ [0x00#6, 0x02#6, 0x04#6, 0x09#6, 0x0C#6, 0x0D#6, 0x0E#6, 0x0F#6] ++
      [0x20#6, 0x21#6, 0x23#6, 0x24#6, 0x25#6, 0x28#6, 0x29#6, 0x2B#6] → ∃ e, decode w = .error e) ∧
  (∀ w : Word, w.extractLsb' 26 6 = 0#6 → w.extractLsb' 0 6 ∉ [0x00#6, 0x02#6, 0x03#6, 0x04#6, 0x06#6, 0x07#6] ++
      [0x21#6, 0x23#6, 0x24#6, 0x25#6, 0x26#6, 0x27#6, 0x2A#6, 0x2B#6] → ∃ e, decode w = .error e) ∧
  (∀ w : Word, w.extractLsb' 26 6 = 0#6 → w.extractLsb' 0 6 ∈ [0x21#6, 0x23#6, 0x24#6, 0x25#6, 0x26#6, 0x27#6, 0x2A#6, 0x2B#6] ++
      [0x04#6, 0x06#6, 0x07#6] → w.extractLsb' 6 5 ≠ 0#5 → ∃ e, decode w = .error e) ∧
  (∀ w : Word, w.extractLsb' 26 6 = 0#6 → w.extractLsb' 0 6 ∈ [0x00#6, 0x02#6, 0x03#6] → w.extractLsb' 21 5 ≠ 0#5 →
    ∃ e, decode w = .error e) ∧
  (∀ w : Word, w.extractLsb' 26 6 = 0x0F#6 → w.extractLsb' 21 5 ≠ 0#5 → ∃ e, decode w = .error e) ∧
  (∀ (s : State) e, s.status = .running → s.pc.toNat + 4 ≤ s.config.memSize → decode (wordAt s s.pc.toNat) = .error e →
    ∃ f, step s = .next { s with status := .stopped f } ∧ f.cause = .unsupportedInstruction ∧ f.pc = s.pc ∧
      f.word = some (wordAt s s.pc.toNat))

/-- R84: the document's three example instructions and their little-endian bytes; and a word of every other family, from
95_test_vectors.md. -/
def Obligations.ExampleWordsDecode : Prop :=
  decode 0x3C01AAAA = .ok (.lui 1 0xAAAA) ∧ decode 0x3421AAAA = .ok (.ori 1 1 0xAAAA) ∧
  decode 0x3026FF00 = .ok (.andi 6 1 0xFF00) ∧
  bytesOf .little 4 0x3C01AAAA = [0xAA, 0xAA, 0x01, 0x3C] ∧ bytesOf .little 4 0x3421AAAA = [0xAA, 0xAA, 0x21, 0x34] ∧
  bytesOf .little 4 0x3026FF00 = [0x00, 0xFF, 0x26, 0x30] ∧
  decode 0x24238000 = .ok (.addiu 3 1 0x8000) ∧ decode 0x00221823 = .ok (.subu 3 1 2) ∧
  decode 0x00021FC3 = .ok (.sra 3 2 31) ∧ decode 0x00221806 = .ok (.srlv 3 2 1) ∧
  decode 0xA422FFFE = .ok (.sh 2 1 0xFFFE) ∧ decode 0x8C230004 = .ok (.lw 3 1 4) ∧
  decode 0x08000040 = .ok (.j 0x40) ∧ decode 0x1022FFFF = .ok (.beq 1 2 0xFFFF)

/-- R72: the word 0 is `SLL $0, $0, 0` and changes nothing but pc, and the delay-slot state that goes with it. -/
def Obligations.ZeroWordIsNop : Prop :=
  decode 0 = .ok (.sll 0 0 0) ∧
  (∀ s : State, s.control = .normal → exec (.sll 0 0 0) s = .next { s with pc := s.pc + 4 }) ∧
  (∀ (s : State) p, s.control = .delaySlotPending p → exec (.sll 0 0 0) s = .next { s with pc := p, control := .normal })

/-- R65, R130: how each operand is built from the instruction's bits, and the effective address. -/
def Obligations.OperandsAreBuilt : Prop :=
  (∀ imm : Imm16, (zeroImm imm).toNat = imm.toNat) ∧ (∀ imm : Imm16, (signImm imm).toInt = imm.toInt) ∧
  (∀ imm : Imm16, (upperImm imm).toNat = imm.toNat * 2 ^ 16) ∧
  (∀ imm : Imm16, (branchOffset imm).toInt = imm.toInt * 4 ∧ branchOffset imm = (imm ++ 0#2).signExtend 32) ∧
  (∀ (pc : Word) (target : Target26),
    (jumpTarget pc target).toNat = (pc.toNat + 4) % 2 ^ 32 / 2 ^ 28 * 2 ^ 28 + target.toNat * 4) ∧
  (∀ v : Word, (shiftAmount v).toNat = v.toNat % 32) ∧
  (∀ (s : State) rs (imm : Imm16), ((s.effectiveAddress rs imm).toNat : Int) = ((s.reg rs).toNat + imm.toInt) % 2 ^ 32)

/-- R83: an operand in its range is stored so that the field means what the source says, and one outside it is refused. That a BEQ's
`label - (pc + 4)` is taken over the integers, so that a label across the 2^32 wrap is refused, is the model's choice (log 10). -/
def Obligations.AssembledOperandsMeanTheSource : Prop :=
  (∀ n imm, unsignedOperand n = some imm ↔ (0 ≤ n ∧ n ≤ 0xFFFF ∧ ((zeroImm imm).toNat : Int) = n)) ∧
  (∀ n imm, signedOperand n = some imm ↔ (-32768 ≤ n ∧ n ≤ 32767 ∧ (signImm imm).toInt = n)) ∧
  (∀ n sa, shamtOperand n = some sa ↔ (0 ≤ n ∧ n ≤ 31 ∧ (sa.toNat : Int) = n)) ∧
  (∀ (pc : Word) (label : Word), (branchOperand pc (label.toNat : Int)).isSome =
    decide (((label.toNat : Int) - (pc + 4).toNat) % 4 = 0 ∧ -131072 ≤ (label.toNat : Int) - (pc + 4).toNat ∧
      (label.toNat : Int) - (pc + 4).toNat ≤ 131068)) ∧
  (∀ (pc : Word) (label : Word) imm, branchOperand pc (label.toNat : Int) = some imm → branchTarget pc imm = label) ∧
  (∀ (pc : Word) (label : Word), (jumpOperand pc (label.toNat : Int)).isSome =
    decide (label.toNat % 4 = 0 ∧ label.toNat / 2 ^ 28 = (pc + 4).toNat / 2 ^ 28)) ∧
  (∀ (pc : Word) (label : Word) target, jumpOperand pc (label.toNat : Int) = some target → jumpTarget pc target = label)

/-- R79: the order in which the operands of each instruction are written, a register as its number and a label as its address. -/
def Obligations.OperandsAreWrittenInThisOrder : Prop :=
  (∀ pc (rt : RegIdx) (imm : Imm16), SourceLine.assemble pc ⟨.lui, [rt.val, imm.toNat]⟩ = some (.lui rt imm)) ∧
  (∀ pc (rt rs : RegIdx) (imm : Imm16),
    SourceLine.assemble pc ⟨.ori, [rt.val, rs.val, imm.toNat]⟩ = some (.ori rt rs imm) ∧
    SourceLine.assemble pc ⟨.andi, [rt.val, rs.val, imm.toNat]⟩ = some (.andi rt rs imm) ∧
    SourceLine.assemble pc ⟨.xori, [rt.val, rs.val, imm.toNat]⟩ = some (.xori rt rs imm) ∧
    SourceLine.assemble pc ⟨.addiu, [rt.val, rs.val, imm.toInt]⟩ = some (.addiu rt rs imm)) ∧
  (∀ pc (rd rs rt : RegIdx),
    SourceLine.assemble pc ⟨.addu, [rd.val, rs.val, rt.val]⟩ = some (.addu rd rs rt) ∧
    SourceLine.assemble pc ⟨.subu, [rd.val, rs.val, rt.val]⟩ = some (.subu rd rs rt) ∧
    SourceLine.assemble pc ⟨.and, [rd.val, rs.val, rt.val]⟩ = some (.and rd rs rt) ∧
    SourceLine.assemble pc ⟨.or, [rd.val, rs.val, rt.val]⟩ = some (.or rd rs rt) ∧
    SourceLine.assemble pc ⟨.xor, [rd.val, rs.val, rt.val]⟩ = some (.xor rd rs rt) ∧
    SourceLine.assemble pc ⟨.nor, [rd.val, rs.val, rt.val]⟩ = some (.nor rd rs rt) ∧
    SourceLine.assemble pc ⟨.slt, [rd.val, rs.val, rt.val]⟩ = some (.slt rd rs rt) ∧
    SourceLine.assemble pc ⟨.sltu, [rd.val, rs.val, rt.val]⟩ = some (.sltu rd rs rt)) ∧
  (∀ pc (rd rt : RegIdx) (sa : Shamt),
    SourceLine.assemble pc ⟨.sll, [rd.val, rt.val, sa.toNat]⟩ = some (.sll rd rt sa) ∧
    SourceLine.assemble pc ⟨.srl, [rd.val, rt.val, sa.toNat]⟩ = some (.srl rd rt sa) ∧
    SourceLine.assemble pc ⟨.sra, [rd.val, rt.val, sa.toNat]⟩ = some (.sra rd rt sa)) ∧
  (∀ pc (rd rt rs : RegIdx),
    SourceLine.assemble pc ⟨.sllv, [rd.val, rt.val, rs.val]⟩ = some (.sllv rd rt rs) ∧
    SourceLine.assemble pc ⟨.srlv, [rd.val, rt.val, rs.val]⟩ = some (.srlv rd rt rs) ∧
    SourceLine.assemble pc ⟨.srav, [rd.val, rt.val, rs.val]⟩ = some (.srav rd rt rs)) ∧
  (∀ pc (rt rs : RegIdx) (imm : Imm16),
    SourceLine.assemble pc ⟨.lb, [rt.val, imm.toInt, rs.val]⟩ = some (.lb rt rs imm) ∧
    SourceLine.assemble pc ⟨.lbu, [rt.val, imm.toInt, rs.val]⟩ = some (.lbu rt rs imm) ∧
    SourceLine.assemble pc ⟨.lh, [rt.val, imm.toInt, rs.val]⟩ = some (.lh rt rs imm) ∧
    SourceLine.assemble pc ⟨.lhu, [rt.val, imm.toInt, rs.val]⟩ = some (.lhu rt rs imm) ∧
    SourceLine.assemble pc ⟨.lw, [rt.val, imm.toInt, rs.val]⟩ = some (.lw rt rs imm) ∧
    SourceLine.assemble pc ⟨.sb, [rt.val, imm.toInt, rs.val]⟩ = some (.sb rt rs imm) ∧
    SourceLine.assemble pc ⟨.sh, [rt.val, imm.toInt, rs.val]⟩ = some (.sh rt rs imm) ∧
    SourceLine.assemble pc ⟨.sw, [rt.val, imm.toInt, rs.val]⟩ = some (.sw rt rs imm)) ∧
  (∀ pc label target, jumpOperand pc label = some target → SourceLine.assemble pc ⟨.j, [label]⟩ = some (.j target)) ∧
  (∀ pc (rs rt : RegIdx) label imm, branchOperand pc label = some imm →
    SourceLine.assemble pc ⟨.beq, [rs.val, rt.val, label]⟩ = some (.beq rs rt imm))

/-- R81: what the expansions of the pseudo-instructions do. `li` and `la` load their value, started outside a delay slot; an `li` of
one instruction does so everywhere (of a longer one only the first instruction is in the delay slot, and the next is the one at the
target). Which expansion of `li` is taken where two fit, as for 0, is the model's choice (log 8). `move` copies, `negu` negates, `not`
complements, `b` is always taken and `beqz` is taken exactly on zero. -/
def Obligations.PseudoInstructionsDoWhatTheySay : Prop :=
  (∀ rt v s, s.control = .normal →
    ∃ t, execAll (loadImmediate rt v) s = .next t ∧ OnlyRegister s t rt v ∧ SameMemory s t ∧ SameInstance s t ∧
      t.control = .normal ∧ t.pc = s.pc + BitVec.ofNat 32 (4 * (loadImmediate rt v).length)) ∧
  (∀ rt v i s, loadImmediate rt v = [i] → ∃ t, exec i s = .next t ∧ WritesRegister s t rt v) ∧
  (∀ rt v s, s.control = .normal →
    ∃ t u, execAll (loadAddress rt v) s = .next t ∧ execAll (loadAddressByOri rt v) s = .next u ∧
      OnlyRegister s t rt v ∧ SameMemory s t ∧ SameInstance s t ∧ t.control = .normal ∧ t.pc = s.pc + 8 ∧
      OnlyRegister s u rt v ∧ SameMemory s u ∧ SameInstance s u ∧ u.control = .normal ∧ u.pc = s.pc + 8) ∧
  (∀ rd rs s, ∃ t, exec (moveByAddu rd rs) s = .next t ∧ exec (moveByOr rd rs) s = .next t ∧ WritesRegister s t rd (s.reg rs)) ∧
  (∀ rd rs s, ∃ t v, exec (negate rd rs) s = .next t ∧ WritesRegister s t rd v ∧ v + s.reg rs = 0) ∧
  (∀ rd rs s, ∃ t v, exec (complement rd rs) s = .next t ∧ WritesRegister s t rd v ∧
    ∀ i, i < 32 → v.getLsbD i = !(s.reg rs).getLsbD i) ∧
  (∀ imm s, s.control = .normal → ∃ t p, exec (branchAlways imm) s = .next t ∧ OnlyControl s t ∧ t.pc = s.pc + 4 ∧
    t.control = .delaySlotPending p ∧ (p.toNat : Int) = (s.pc.toNat + 4 + imm.toInt * 4) % 2 ^ 32) ∧
  (∀ rs imm s, s.control = .normal → s.reg rs = 0 → ∃ t p, exec (branchIfZero rs imm) s = .next t ∧ OnlyControl s t ∧
    t.pc = s.pc + 4 ∧ t.control = .delaySlotPending p ∧ (p.toNat : Int) = (s.pc.toNat + 4 + imm.toInt * 4) % 2 ^ 32) ∧
  (∀ rs imm s, s.control = .normal → s.reg rs ≠ 0 → ∃ t, exec (branchIfZero rs imm) s = .next t ∧ OnlyControl s t ∧
    t.pc = s.pc + 4 ∧ t.control = .normal)

/-! The immediate ALU instructions -/

/-- R91. -/
def Obligations.LuiLoadsTheUpperHalf : Prop :=
  EncodedBy 0xFFE00000 0x3C000000 (fun w => .lui (regOf (w.extractLsb' 16 5)) (w.extractLsb' 0 16)) ∧
  ∀ rt imm s, ∃ t v, exec (.lui rt imm) s = .next t ∧ WritesRegister s t rt v ∧
    v.toNat = imm.toNat * 2 ^ 16 ∧ v.toNat % 2 ^ 16 = 0

/-- R92, R94, R95: the immediate's bits 31:16 count as 0. -/
def Obligations.LogicalImmediates : Prop :=
  EncodedBy 0xFC000000 0x34000000 (ofRtRsImm .ori) ∧ EncodedBy 0xFC000000 0x30000000 (ofRtRsImm .andi) ∧
  EncodedBy 0xFC000000 0x38000000 (ofRtRsImm .xori) ∧
  (∀ rt rs imm s, ∃ t v, exec (.ori rt rs imm) s = .next t ∧ WritesRegister s t rt v ∧
    ∀ i, i < 32 → v.getLsbD i = ((s.reg rs).getLsbD i || (decide (i < 16) && imm.getLsbD i))) ∧
  (∀ rt rs imm s, ∃ t v, exec (.andi rt rs imm) s = .next t ∧ WritesRegister s t rt v ∧
    ∀ i, i < 32 → v.getLsbD i = ((s.reg rs).getLsbD i && (decide (i < 16) && imm.getLsbD i))) ∧
  (∀ rt rs imm s, ∃ t v, exec (.xori rt rs imm) s = .next t ∧ WritesRegister s t rt v ∧
    ∀ i, i < 32 → v.getLsbD i = ((s.reg rs).getLsbD i ^^ (decide (i < 16) && imm.getLsbD i)))

/-- R93: the sum of the unsigned register and the signed immediate, modulo 2^32, with no overflow. -/
def Obligations.AddiuAddsModulo : Prop :=
  EncodedBy 0xFC000000 0x24000000 (ofRtRsImm .addiu) ∧
  ∀ rt rs imm s, ∃ t v, exec (.addiu rt rs imm) s = .next t ∧ WritesRegister s t rt v ∧
    (v.toNat : Int) = ((s.reg rs).toNat + imm.toInt) % 2 ^ 32

/-! The register ALU instructions -/

/-- R101, R102. -/
def Obligations.AdduAndSubuWrap : Prop :=
  EncodedBy 0xFC0007FF 0x00000021 (ofRdRsRt .addu) ∧ EncodedBy 0xFC0007FF 0x00000023 (ofRdRsRt .subu) ∧
  (∀ rd rs rt s, ∃ t v, exec (.addu rd rs rt) s = .next t ∧ WritesRegister s t rd v ∧
    v.toNat = ((s.reg rs).toNat + (s.reg rt).toNat) % 2 ^ 32) ∧
  (∀ rd rs rt s, ∃ t v, exec (.subu rd rs rt) s = .next t ∧ WritesRegister s t rd v ∧
    (v.toNat : Int) = ((s.reg rs).toNat - (s.reg rt).toNat : Int) % 2 ^ 32)

/-- R103 to R106. -/
def Obligations.RegisterLogic : Prop :=
  EncodedBy 0xFC0007FF 0x00000024 (ofRdRsRt .and) ∧ EncodedBy 0xFC0007FF 0x00000025 (ofRdRsRt .or) ∧
  EncodedBy 0xFC0007FF 0x00000026 (ofRdRsRt .xor) ∧ EncodedBy 0xFC0007FF 0x00000027 (ofRdRsRt .nor) ∧
  (∀ rd rs rt s, ∃ t v, exec (.and rd rs rt) s = .next t ∧ WritesRegister s t rd v ∧
    ∀ i, i < 32 → v.getLsbD i = ((s.reg rs).getLsbD i && (s.reg rt).getLsbD i)) ∧
  (∀ rd rs rt s, ∃ t v, exec (.or rd rs rt) s = .next t ∧ WritesRegister s t rd v ∧
    ∀ i, i < 32 → v.getLsbD i = ((s.reg rs).getLsbD i || (s.reg rt).getLsbD i)) ∧
  (∀ rd rs rt s, ∃ t v, exec (.xor rd rs rt) s = .next t ∧ WritesRegister s t rd v ∧
    ∀ i, i < 32 → v.getLsbD i = ((s.reg rs).getLsbD i ^^ (s.reg rt).getLsbD i)) ∧
  (∀ rd rs rt s, ∃ t v, exec (.nor rd rs rt) s = .next t ∧ WritesRegister s t rd v ∧
    ∀ i, i < 32 → v.getLsbD i = !((s.reg rs).getLsbD i || (s.reg rt).getLsbD i))

/-- R107, R108: SLT compares as signed, SLTU as unsigned numbers. -/
def Obligations.SetOnLessThan : Prop :=
  EncodedBy 0xFC0007FF 0x0000002A (ofRdRsRt .slt) ∧ EncodedBy 0xFC0007FF 0x0000002B (ofRdRsRt .sltu) ∧
  (∀ rd rs rt s, ∃ t, exec (.slt rd rs rt) s = .next t ∧
    WritesRegister s t rd (if (s.reg rs).toInt < (s.reg rt).toInt then 0x00000001 else 0x00000000)) ∧
  (∀ rd rs rt s, ∃ t, exec (.sltu rd rs rt) s = .next t ∧
    WritesRegister s t rd (if (s.reg rs).toNat < (s.reg rt).toNat then 0x00000001 else 0x00000000))

/-! The shifts -/

/-- R115 to R117: SRA's result is the signed value divided by the power of two, rounded toward minus infinity. -/
def Obligations.ImmediateShifts : Prop :=
  EncodedBy 0xFFE0003F 0x00000000 (ofRdRtShamt .sll) ∧ EncodedBy 0xFFE0003F 0x00000002 (ofRdRtShamt .srl) ∧
  EncodedBy 0xFFE0003F 0x00000003 (ofRdRtShamt .sra) ∧
  (∀ rd rt sa s, ∃ t v, exec (.sll rd rt sa) s = .next t ∧ WritesRegister s t rd v ∧
    v.toNat = (s.reg rt).toNat * 2 ^ sa.toNat % 2 ^ 32) ∧
  (∀ rd rt sa s, ∃ t v, exec (.srl rd rt sa) s = .next t ∧ WritesRegister s t rd v ∧
    v.toNat = (s.reg rt).toNat / 2 ^ sa.toNat) ∧
  (∀ rd rt sa s, ∃ t v, exec (.sra rd rt sa) s = .next t ∧ WritesRegister s t rd v ∧
    v.toInt = (s.reg rt).toInt / 2 ^ sa.toNat)

/-- R118 to R120: the amount is the low 5 bits of `x[rs]`. -/
def Obligations.VariableShifts : Prop :=
  EncodedBy 0xFC0007FF 0x00000004 (ofRdRtRs .sllv) ∧ EncodedBy 0xFC0007FF 0x00000006 (ofRdRtRs .srlv) ∧
  EncodedBy 0xFC0007FF 0x00000007 (ofRdRtRs .srav) ∧
  (∀ rd rt rs s, ∃ t v, exec (.sllv rd rt rs) s = .next t ∧ WritesRegister s t rd v ∧
    v.toNat = (s.reg rt).toNat * 2 ^ ((s.reg rs).toNat % 32) % 2 ^ 32) ∧
  (∀ rd rt rs s, ∃ t v, exec (.srlv rd rt rs) s = .next t ∧ WritesRegister s t rd v ∧
    v.toNat = (s.reg rt).toNat / 2 ^ ((s.reg rs).toNat % 32)) ∧
  (∀ rd rt rs s, ∃ t v, exec (.srav rd rt rs) s = .next t ∧ WritesRegister s t rd v ∧
    v.toInt = (s.reg rt).toInt / 2 ^ ((s.reg rs).toNat % 32))

/-! Loads and stores. A store's frame rests on the canonical form of memory, which every step keeps (`StepKeepsTheInvariant`). -/

/-- R132 to R135: each store writes its bytes in the byte order and nothing else, and out of bounds raises OutOfBoundsAccess. -/
def Obligations.StoresWriteTheirBytes : Prop :=
  EncodedBy 0xFC000000 0xA0000000 (ofRtRsImm .sb) ∧ EncodedBy 0xFC000000 0xA4000000 (ofRtRsImm .sh) ∧
  EncodedBy 0xFC000000 0xAC000000 (ofRtRsImm .sw) ∧
  (∀ rt rs imm s, s.mem.wf → (s.effectiveAddress rs imm).toNat + 1 ≤ s.config.memSize →
    ∃ t, exec (.sb rt rs imm) s = .next t ∧ StoresBytes s t (s.effectiveAddress rs imm).toNat [(s.reg rt).extractLsb' 0 8]) ∧
  (∀ rt rs imm s, s.mem.wf → (s.effectiveAddress rs imm).toNat + 2 ≤ s.config.memSize →
    ∃ t, exec (.sh rt rs imm) s = .next t ∧ StoresBytes s t (s.effectiveAddress rs imm).toNat (halfBytes s (s.reg rt))) ∧
  (∀ rt rs imm s, s.mem.wf → (s.effectiveAddress rs imm).toNat + 4 ≤ s.config.memSize →
    ∃ t, exec (.sw rt rs imm) s = .next t ∧ StoresBytes s t (s.effectiveAddress rs imm).toNat (wordBytes s (s.reg rt))) ∧
  (∀ rt rs imm s, s.config.memSize < (s.effectiveAddress rs imm).toNat + 1 →
    exec (.sb rt rs imm) s = .fault (.fatal (.outOfBoundsAccess (s.effectiveAddress rs imm) .byte .store))) ∧
  (∀ rt rs imm s, s.config.memSize < (s.effectiveAddress rs imm).toNat + 2 →
    exec (.sh rt rs imm) s = .fault (.fatal (.outOfBoundsAccess (s.effectiveAddress rs imm) .half .store))) ∧
  (∀ rt rs imm s, s.config.memSize < (s.effectiveAddress rs imm).toNat + 4 →
    exec (.sw rt rs imm) s = .fault (.fatal (.outOfBoundsAccess (s.effectiveAddress rs imm) .word .store)))

/-- R131, R136, R137. -/
def Obligations.LbAndLbuLoadOneByte : Prop :=
  EncodedBy 0xFC000000 0x80000000 (ofRtRsImm .lb) ∧ EncodedBy 0xFC000000 0x90000000 (ofRtRsImm .lbu) ∧
  (∀ rt rs imm s, (s.effectiveAddress rs imm).toNat < s.config.memSize →
    (∃ t v, exec (.lb rt rs imm) s = .next t ∧ WritesRegister s t rt v ∧
      v.toInt = (s.mem.read (s.effectiveAddress rs imm).toNat).toInt) ∧
    (∃ t v, exec (.lbu rt rs imm) s = .next t ∧ WritesRegister s t rt v ∧
      v.toNat = (s.mem.read (s.effectiveAddress rs imm).toNat).toNat)) ∧
  (∀ rt rs imm s, s.config.memSize ≤ (s.effectiveAddress rs imm).toNat →
    exec (.lb rt rs imm) s = .fault (.fatal (.outOfBoundsAccess (s.effectiveAddress rs imm) .byte .load)) ∧
    exec (.lbu rt rs imm) s = .fault (.fatal (.outOfBoundsAccess (s.effectiveAddress rs imm) .byte .load)))

/-- R131, R138, R139. -/
def Obligations.LhAndLhuLoadTwoBytes : Prop :=
  EncodedBy 0xFC000000 0x84000000 (ofRtRsImm .lh) ∧ EncodedBy 0xFC000000 0x94000000 (ofRtRsImm .lhu) ∧
  (∀ rt rs imm s, (s.effectiveAddress rs imm).toNat + 2 ≤ s.config.memSize →
    (∃ t v, exec (.lh rt rs imm) s = .next t ∧ WritesRegister s t rt v ∧
      v.toInt = (halfAt s (s.effectiveAddress rs imm).toNat).toInt) ∧
    (∃ t v, exec (.lhu rt rs imm) s = .next t ∧ WritesRegister s t rt v ∧
      v.toNat = (halfAt s (s.effectiveAddress rs imm).toNat).toNat)) ∧
  (∀ rt rs imm s, s.config.memSize < (s.effectiveAddress rs imm).toNat + 2 →
    exec (.lh rt rs imm) s = .fault (.fatal (.outOfBoundsAccess (s.effectiveAddress rs imm) .half .load)) ∧
    exec (.lhu rt rs imm) s = .fault (.fatal (.outOfBoundsAccess (s.effectiveAddress rs imm) .half .load)))

/-- R131, R140. -/
def Obligations.LwLoadsFourBytes : Prop :=
  EncodedBy 0xFC000000 0x8C000000 (ofRtRsImm .lw) ∧
  (∀ rt rs imm s, (s.effectiveAddress rs imm).toNat + 4 ≤ s.config.memSize →
    ∃ t, exec (.lw rt rs imm) s = .next t ∧ WritesRegister s t rt (wordAt s (s.effectiveAddress rs imm).toNat)) ∧
  (∀ rt rs imm s, s.config.memSize < (s.effectiveAddress rs imm).toNat + 4 →
    exec (.lw rt rs imm) s = .fault (.fatal (.outOfBoundsAccess (s.effectiveAddress rs imm) .word .load)))

/-- R206: the instruction after a load reads the loaded value. -/
def Obligations.NoLoadDelay : Prop :=
  ∀ rt rs imm s t, rt ≠ 0 → exec (.lw rt rs imm) s = .next t →
    ∀ rd, rd ≠ 0 → ∃ u, exec (.addu rd rt 0) t = .next u ∧ u.reg rd = wordAt s (s.effectiveAddress rs imm).toNat

/-- R141: a load returns what a store of its width put at its address, at any address in bounds, in both byte orders. -/
def Obligations.StoreThenLoadRoundTrip : Prop :=
  (∀ rt rs imm rd s t, s.mem.wf → rd ≠ 0 → exec (.sw rt rs imm) s = .next t →
    ∃ u, exec (.lw rd rs imm) t = .next u ∧ u.reg rd = s.reg rt) ∧
  (∀ rt rs imm rd s t, s.mem.wf → rd ≠ 0 → exec (.sh rt rs imm) s = .next t →
    (∃ u, exec (.lh rd rs imm) t = .next u ∧ (u.reg rd).toInt = ((s.reg rt).extractLsb' 0 16).toInt) ∧
    (∃ u, exec (.lhu rd rs imm) t = .next u ∧ (u.reg rd).toNat = (s.reg rt).toNat % 2 ^ 16)) ∧
  (∀ rt rs imm rd s t, s.mem.wf → rd ≠ 0 → exec (.sb rt rs imm) s = .next t →
    (∃ u, exec (.lb rd rs imm) t = .next u ∧ (u.reg rd).toInt = ((s.reg rt).extractLsb' 0 8).toInt) ∧
    (∃ u, exec (.lbu rd rs imm) t = .next u ∧ (u.reg rd).toNat = (s.reg rt).toNat % 2 ^ 8))

/-- R142: LB against LBU, and LH against LHU, by the high bit of what they load. -/
def Obligations.ExtensionPairing : Prop :=
  (∀ rt rs imm s t u, rt ≠ 0 → exec (.lb rt rs imm) s = .next t → exec (.lbu rt rs imm) s = .next u →
    (t.reg rt).extractLsb' 0 8 = s.mem.read (s.effectiveAddress rs imm).toNat ∧
    (u.reg rt).extractLsb' 0 8 = s.mem.read (s.effectiveAddress rs imm).toNat ∧ (u.reg rt).extractLsb' 8 24 = 0#24 ∧
    ((s.mem.read (s.effectiveAddress rs imm).toNat).msb = true → (t.reg rt).extractLsb' 8 24 = BitVec.allOnes 24) ∧
    ((s.mem.read (s.effectiveAddress rs imm).toNat).msb = false → t.reg rt = u.reg rt)) ∧
  (∀ rt rs imm s t u, rt ≠ 0 → exec (.lh rt rs imm) s = .next t → exec (.lhu rt rs imm) s = .next u →
    (t.reg rt).extractLsb' 0 16 = halfAt s (s.effectiveAddress rs imm).toNat ∧
    (u.reg rt).extractLsb' 0 16 = halfAt s (s.effectiveAddress rs imm).toNat ∧ (u.reg rt).extractLsb' 16 16 = 0#16 ∧
    ((halfAt s (s.effectiveAddress rs imm).toNat).msb = true → (t.reg rt).extractLsb' 16 16 = BitVec.allOnes 16) ∧
    ((halfAt s (s.effectiveAddress rs imm).toNat).msb = false → t.reg rt = u.reg rt))

/-- R143: a misaligned word and halfword in the little-endian order. -/
def Obligations.MisalignedLoads : Prop :=
  ∀ s : State, s.config.byteOrder = .little → 0x105 ≤ s.config.memSize → s.reg 1 = 0x100 →
    s.mem.read 0x101 = 0xAB → s.mem.read 0x102 = 0x34 → s.mem.read 0x103 = 0x12 → s.mem.read 0x104 = 0xAA →
    (∃ t, decode 0x8C230001 = .ok (.lw 3 1 1) ∧ exec (.lw 3 1 1) s = .next t ∧ t.reg 3 = 0xAA1234AB) ∧
    (∃ t, exec (.lh 4 1 1) s = .next t ∧ t.reg 4 = 0x000034AB)

/-! Memory -/

/-- R42: the value of a read, as the sum over its bytes in either order, or OutOfBoundsAccess; a read changes no state, being a
function of it. -/
def Obligations.MemReadSumsTheBytes : Prop :=
  (∀ (s : State) a w k, a.toNat + w.bytes ≤ s.config.memSize → ∃ v, s.memRead a w k = .ok v ∧
    (s.config.byteOrder = .little →
      v.toNat = ((List.range w.bytes).map fun i => (s.mem.read (a.toNat + i)).toNat * 2 ^ (8 * i)).sum) ∧
    (s.config.byteOrder = .big →
      v.toNat = ((List.range w.bytes).map fun i => (s.mem.read (a.toNat + i)).toNat * 2 ^ (8 * (w.bytes - 1 - i))).sum)) ∧
  (∀ (s : State) a w k, s.config.memSize < a.toNat + w.bytes → s.memRead a w k = .error (.outOfBoundsAccess a w k))

/-- R43: the bytes a write leaves, and that no other byte changes. -/
def Obligations.MemWritePlacesTheBytes : Prop :=
  ∀ (s : State) a w v, s.mem.wf →
    (∀ i, i < w.bytes → (s.storeBytes a w v).mem.read (a.toNat + i) =
      match s.config.byteOrder with
      | .little => v.extractLsb' (8 * i) 8
      | .big    => v.extractLsb' (8 * (w.bytes - 1 - i)) 8) ∧
    (∀ c, c < a.toNat ∨ a.toNat + w.bytes ≤ c → (s.storeBytes a w v).mem.read c = s.mem.read c)

/-- R44: an access is in range when its last byte is, with no wrap. A read, and the access of a load or store, raises exactly when it is
not in range; a store partly in range writes none of its bytes: the step changes nothing but the status. One in range completes. -/
def Obligations.BoundsAreChecked : Prop :=
  (∀ (s : State) a w k, s.memRead a w k = .error (.outOfBoundsAccess a w k) ↔ s.config.memSize < a.toNat + w.bytes) ∧
  (∀ i (s : State) w k rs imm, dataAccess i = some (w, k, rs, imm) →
    (exec i s = .fault (.fatal (.outOfBoundsAccess (s.effectiveAddress rs imm) w k)) ↔
      s.config.memSize < (s.effectiveAddress rs imm).toNat + w.bytes)) ∧
  (∀ i (s : State) w k rs imm, s.status = .running → InstructionAtPc s i → dataAccess i = some (w, k, rs, imm) →
    (s.config.memSize < (s.effectiveAddress rs imm).toNat + w.bytes →
      ∃ f, step s = .next { s with status := .stopped f } ∧ f.cause = .outOfBoundsAccess (s.effectiveAddress rs imm) w k) ∧
    ((s.effectiveAddress rs imm).toNat + w.bytes ≤ s.config.memSize →
      ∃ t, exec i s = .next t ∧ step s = .next t ∧ t.status = .running))

/-- R47: what bytes and narrower reads see of a word written. -/
def Obligations.MixedWidthAccess : Prop :=
  ∀ (s t : State) (a : Word), s.mem.wf → configAccepted s.config = true → a.toNat + 4 ≤ s.config.memSize →
    t = s.storeBytes a .word 0x1234ABCD →
    (s.config.byteOrder = .little → t.mem.readBytes a.toNat 4 = [0xCD, 0xAB, 0x34, 0x12] ∧
      t.memRead a .byte .load = .ok 0xCD ∧ t.memRead (a + 2) .half .load = .ok 0x1234) ∧
    (s.config.byteOrder = .big → t.mem.readBytes a.toNat 4 = [0x12, 0x34, 0xAB, 0xCD] ∧
      t.memRead a .byte .load = .ok 0x12 ∧ t.memRead (a + 2) .half .load = .ok 0xABCD)

/-- Memories in canonical form that read the same are the same data. -/
def Obligations.CanonicalMemoryIsDeterminedByItsReads : Prop :=
  ∀ m k : Memory, m.wf → k.wf → (∀ a, m.read a = k.read a) → m = k

/-- R52: reads have no side effects and a store changes exactly the bytes it addresses: no instruction but a store changes memory, and
a store changes no byte outside its access. -/
def Obligations.OnlyStoresWriteMemory : Prop :=
  (∀ i s t, exec i s = .next t → isStore i = false → t.mem = s.mem) ∧
  (∀ i s t w rs imm, s.mem.wf → exec i s = .next t → dataAccess i = some (w, .store, rs, imm) →
    ∀ c, c < (s.effectiveAddress rs imm).toNat ∨ (s.effectiveAddress rs imm).toNat + w.bytes ≤ c → t.mem.read c = s.mem.read c)

/-- R58: each fetch reads memory as it stands, so a store to the address fetched next is seen by that fetch. -/
def Obligations.FetchSeesEveryStore : Prop :=
  (∀ s : State, s.pc.toNat + 4 ≤ s.config.memSize → s.fetch = .ok (wordAt s s.pc.toNat)) ∧
  (∀ rt rs imm s t, s.mem.wf → exec (.sw rt rs imm) s = .next t → s.effectiveAddress rs imm = t.pc →
    t.fetch = .ok (s.reg rt))

/-! Control transfer -/

/-- R151: J's encoding and effect; in a delay slot under Reject it raises BranchInDelaySlot, and the other policies are stated in
`AllowedBranchInADelaySlot`. -/
def Obligations.JumpSetsThePendingTarget : Prop :=
  EncodedBy 0xFC000000 0x08000000 (fun w => .j (w.extractLsb' 0 26)) ∧
  (∀ target s, s.control = .normal → ∃ t p, exec (.j target) s = .next t ∧ OnlyControl s t ∧ t.pc = s.pc + 4 ∧
    t.control = .delaySlotPending p ∧ p.toNat = (s.pc.toNat + 4) % 2 ^ 32 / 2 ^ 28 * 2 ^ 28 + target.toNat * 4) ∧
  (∀ target s, s.inDelaySlot = true → s.config.branchPolicy = .reject →
    exec (.j target) s = .fault (.fatal .branchInDelaySlot)) ∧
  (∀ target s, s.inDelaySlot = true → s.config.branchPolicy ≠ .reject →
    ∃ t, exec (.j target) s = .next t ∧ OnlyControl s t)

/-- R152: BEQ's encoding and effect, taken and not taken; in a delay slot under Reject it raises BranchInDelaySlot whether or not it
would be taken. -/
def Obligations.BeqBranchesWhenEqual : Prop :=
  EncodedBy 0xFC000000 0x10000000
    (fun w => .beq (regOf (w.extractLsb' 21 5)) (regOf (w.extractLsb' 16 5)) (w.extractLsb' 0 16)) ∧
  (∀ rs rt imm s, s.control = .normal → s.reg rs = s.reg rt → ∃ t p, exec (.beq rs rt imm) s = .next t ∧ OnlyControl s t ∧
    t.pc = s.pc + 4 ∧ t.control = .delaySlotPending p ∧ (p.toNat : Int) = (s.pc.toNat + 4 + imm.toInt * 4) % 2 ^ 32) ∧
  (∀ rs rt imm s, s.control = .normal → s.reg rs ≠ s.reg rt →
    ∃ t, exec (.beq rs rt imm) s = .next t ∧ OnlyControl s t ∧ t.pc = s.pc + 4 ∧ t.control = .normal) ∧
  (∀ rs rt imm s, s.inDelaySlot = true → s.config.branchPolicy = .reject →
    exec (.beq rs rt imm) s = .fault (.fatal .branchInDelaySlot)) ∧
  (∀ rs rt imm s, s.inDelaySlot = true → s.config.branchPolicy ≠ .reject →
    ∃ t, exec (.beq rs rt imm) s = .next t ∧ OnlyControl s t)

/-- R153: targets are word-aligned when pc is, no target is checked when the branch runs, and the fetch at a target outside the
provisioned range then raises OutOfBoundsAccess with kind fetch. -/
def Obligations.TargetsAreAlignedAndUnchecked : Prop :=
  (∀ s i p, s.pc.toNat % 4 = 0 → takenTarget s i = some p → p.toNat % 4 = 0) ∧
  (∀ s i p, s.control = .normal → takenTarget s i = some p → ∃ t, exec i s = .next t ∧ t.control = .delaySlotPending p) ∧
  (∀ s : State, s.status = .running → s.config.memSize < s.pc.toNat + 4 →
    ∃ f, step s = .next { s with status := .stopped f } ∧ f.cause = .outOfBoundsAccess s.pc .word .fetch)

/-- R160: under Reject a J or BEQ fetched in a delay slot stops the core before it runs, taken or not. -/
def Obligations.RejectedBranchInADelaySlot : Prop :=
  ∀ (s : State) i p, s.status = .running → s.control = .delaySlotPending p → s.config.branchPolicy = .reject →
    InstructionAtPc s i → isTransfer i = true →
    ∃ f, step s = .next { s with status := .stopped f } ∧ f.cause = .branchInDelaySlot ∧ f.pc = s.pc ∧
      f.word = some (wordAt s s.pc.toNat) ∧ f.pending = some p

/-- R161 to R163: what a taken J or BEQ in a delay slot does under each of the other policies, and that one not taken ends with the
first target (R159). -/
def Obligations.AllowedBranchInADelaySlot : Prop :=
  ∀ (s : State) i p, s.control = .delaySlotPending p → isTransfer i = true → s.config.branchPolicy ≠ .reject →
    ∃ t, exec i s = .next t ∧ OnlyControl s t ∧
      (takenTarget s i = none → t.pc = p ∧ t.control = .normal) ∧
      ∀ q, takenTarget s i = some q →
        (s.config.branchPolicy = .firstWins → t.pc = p ∧ t.control = .normal) ∧
        (s.config.branchPolicy = .lastWriteWins → t.pc = q ∧ t.control = .normal) ∧
        (s.config.branchPolicy = .pipelined → t.pc = p ∧ t.control = .delaySlotPending q)

/-- R157: the commit: the register write, the memory write, and the state machine. -/
def Obligations.CommitIsTheStateMachine : Prop :=
  ∀ (s : State) e,
    (s.commit e).config = s.config ∧ (s.commit e).status = s.status ∧
    (e.register = none → SameRegisters s (s.commit e)) ∧
    (∀ r v, e.register = some (r, v) → OnlyRegister s (s.commit e) r v) ∧
    (e.store = none → (s.commit e).mem = s.mem) ∧
    (∀ a w v, e.store = some (a, w, v) → (s.commit e).mem = (s.storeBytes a w v).mem) ∧
    (s.control = .normal → (s.commit e).pc = s.pc + 4 ∧ (s.commit e).pendingTarget = e.branch ∧
      (s.commit e).inDelaySlot = e.branch.isSome) ∧
    (∀ p, s.control = .delaySlotPending p → e.branch = none → (s.commit e).pc = p ∧ (s.commit e).pendingTarget = none ∧
      (s.commit e).inDelaySlot = false) ∧
    (∀ p t, s.control = .delaySlotPending p → e.branch = some t →
      (s.config.branchPolicy = .firstWins → (s.commit e).pc = p ∧ (s.commit e).control = .normal) ∧
      (s.config.branchPolicy = .lastWriteWins → (s.commit e).pc = t ∧ (s.commit e).control = .normal) ∧
      (s.config.branchPolicy = .pipelined → (s.commit e).pc = p ∧ (s.commit e).control = .delaySlotPending t))

/-- R165: after a taken branch exactly one further instruction runs, at the next address, before pc is the target. -/
def Obligations.DelaySlotLaw : Prop :=
  ∀ (s : State) i p, s.status = .running → s.control = .normal → InstructionAtPc s i → takenTarget s i = some p →
    ∃ u, step s = .next u ∧ u.pc = s.pc + 4 ∧ u.control = .delaySlotPending p ∧ u.status = .running ∧ OnlyControl s u ∧
      ∀ j v, InstructionAtPc u j → isTransfer j = false → step u = .next v → v.status = .running →
        exec j u = .next v ∧ v.pc = p ∧ v.control = .normal

/-- R158: after a BEQ that is not taken the next instruction is not in a delay slot: a J or BEQ there runs under every policy. -/
def Obligations.NotTakenBeqHasNoDelaySlot : Prop :=
  ∀ (s : State) rs rt imm, s.status = .running → s.control = .normal → InstructionAtPc s (.beq rs rt imm) →
    s.reg rs ≠ s.reg rt →
    ∃ u, step s = .next u ∧ u.pc = s.pc + 4 ∧ u.control = .normal ∧
      ∀ j, InstructionAtPc u j → isTransfer j = true → ∃ v, step u = .next v ∧ v.status = .running

/-- The state enters or stays in a delay slot only by a J or BEQ (R157: a non-branch instruction leads to Normal). -/
def Obligations.OnlyTransfersSetAPendingTarget : Prop :=
  ∀ i s t, exec i s = .next t → isTransfer i = false → AdvancesPast s t ∧ t.pendingTarget = none ∧ t.inDelaySlot = false

/-- R167: a transfer to itself and its delay-slot instruction run forever, pc alternating between the two addresses. The delay-slot
instruction is any but a J or BEQ. If it accesses memory, the access stays in bounds whatever the instruction's own destination holds,
and a store does not reach the two instructions of the loop. Memory changes, if at all, only where a store in the slot writes. -/
def Obligations.SelfLoopRunsForever : Prop :=
  ∀ (s : State) i j, s.mem.wf → s.status = .running → s.control = .normal → InstructionAtPc s i → loopsTo s.pc i = true →
    (s.pc + 4).toNat + 4 ≤ s.config.memSize → decode (wordAt s (s.pc + 4).toNat) = .ok j → isTransfer j = false →
    (∀ w k rs imm, dataAccess j = some (w, k, rs, imm) →
      (∀ t : State, t.config = s.config → (∀ q, registerWritten j ≠ some q → t.reg q = s.reg q) →
        (t.effectiveAddress rs imm).toNat + w.bytes ≤ s.config.memSize) ∧
      (k = .store → ∀ a ∈ [s.pc.toNat, (s.pc + 4).toNat],
        (s.effectiveAddress rs imm).toNat + w.bytes ≤ a ∨ a + 4 ≤ (s.effectiveAddress rs imm).toNat)) →
    ∀ n, ∃ t u, Sys2Proof.core.run (2 * n) s = .next t ∧ t.pc = s.pc ∧ t.control = .normal ∧ t.status = .running ∧
      Sys2Proof.core.run (2 * n + 1) s = .next u ∧ u.pc = s.pc + 4 ∧ u.control = .delaySlotPending s.pc ∧ u.status = .running ∧
      (isStore j = false → t.mem = s.mem ∧ u.mem = s.mem) ∧
      ∀ c, (∀ w rs imm, dataAccess j = some (w, .store, rs, imm) →
          c < (s.effectiveAddress rs imm).toNat ∨ (s.effectiveAddress rs imm).toNat + w.bytes ≤ c) →
        t.mem.read c = s.mem.read c ∧ u.mem.read c = s.mem.read c

/-! The step, fatal conditions and the host -/

/-- A step of a running core whose bytes at pc decode is the instruction's `exec`, with a raised fatal condition recorded in the status
(R154). -/
def Obligations.StepRunsTheDecodedInstruction : Prop :=
  ∀ (s : State) i, s.status = .running → InstructionAtPc s i →
    (∀ t, exec i s = .next t → step s = .next t) ∧
    (∀ c, exec i s = .fault (.fatal c) → step s = .next (s.takeFatal c (some (wordAt s s.pc.toNat))))

/-- R172: which instruction raises which condition, and when; every other instruction and every other state completes. -/
def Obligations.WhichInstructionRaisesWhat : Prop :=
  (∀ i s c, exec i s = .fault (.fatal c) ↔
    (isTransfer i = true ∧ s.inDelaySlot = true ∧ s.config.branchPolicy = .reject ∧ c = .branchInDelaySlot) ∨
    (∃ w k rs imm, dataAccess i = some (w, k, rs, imm) ∧ s.config.memSize < (s.effectiveAddress rs imm).toNat + w.bytes ∧
      c = .outOfBoundsAccess (s.effectiveAddress rs imm) w k)) ∧
  (∀ i s, (∃ c, exec i s = .fault (.fatal c)) ∨ (∃ t, exec i s = .next t ∧ t.status = s.status))

/-- R176: the checks in step order, the first that fails being the only one reported; when none fails the step completes. -/
def Obligations.FatalConditionsInStepOrder : Prop :=
  ∀ s : State, s.status = .running →
    (s.config.memSize < s.pc.toNat + 4 →
      ∃ f, step s = .next { s with status := .stopped f } ∧ f.cause = .outOfBoundsAccess s.pc .word .fetch ∧ f.word = none) ∧
    (s.pc.toNat + 4 ≤ s.config.memSize → ∀ e, decode (wordAt s s.pc.toNat) = .error e →
      ∃ f, step s = .next { s with status := .stopped f } ∧ f.cause = .unsupportedInstruction) ∧
    (∀ i, InstructionAtPc s i → isTransfer i = true → s.inDelaySlot = true → s.config.branchPolicy = .reject →
      ∃ f, step s = .next { s with status := .stopped f } ∧ f.cause = .branchInDelaySlot) ∧
    (∀ i w k rs imm, InstructionAtPc s i → dataAccess i = some (w, k, rs, imm) →
      s.config.memSize < (s.effectiveAddress rs imm).toNat + w.bytes →
      ∃ f, step s = .next { s with status := .stopped f } ∧
        f.cause = .outOfBoundsAccess (s.effectiveAddress rs imm) w k) ∧
    (∀ i, InstructionAtPc s i →
      ¬ (isTransfer i = true ∧ s.inDelaySlot = true ∧ s.config.branchPolicy = .reject) →
      (∀ w k rs imm, dataAccess i = some (w, k, rs, imm) →
        (s.effectiveAddress rs imm).toNat + w.bytes ≤ s.config.memSize) →
      ∃ t, step s = .next t ∧ t.status = .running ∧ exec i s = .next t)

/-- R173: a step that raises a fatal condition writes nothing but the status, and the record holds the step's pc, its word and its
pending target (R171, but for the message's text, which no rule fixes). -/
def Obligations.FatalConditionsArePrecise : Prop :=
  ∀ (s t : State) f, s.status = .running → step s = .next t → t.status = .stopped f →
    t = { s with status := .stopped f } ∧ f.pc = s.pc ∧ f.pending = s.pendingTarget ∧
    (f.word = none ↔ ∃ a w, f.cause = .outOfBoundsAccess a w .fetch) ∧
    (∀ w, f.word = some w → w = wordAt s s.pc.toNat)

/-- R175: a stopped core halts at every later step, keeps its state, and is never running again. No other state is without a next
state, and no step is refused. -/
def Obligations.AStoppedCoreStaysStopped : Prop :=
  (∀ (s : State) f, s.status = .stopped f → step s = .fault (.halted f) ∧
    (∀ n, ((fun u => (hostStep u).2)^[n]) s = s) ∧ ∀ n, (hostStep (((fun u => (hostStep u).2)^[n]) s)).1.1 = .halted) ∧
  (∀ s r, step s ≠ .refused r) ∧ (∀ s r, step s = .fault r ↔ ∃ f, s.status = .stopped f ∧ r = .halted f)

/-- R185: what `step()` returns: Halted only after a stop, Trapped(f) for the step that stops, Continue otherwise, and
`delay_pending` is `in_delay_slot` after the step. -/
def Obligations.HostStepReports : Prop :=
  (∀ s : State, (hostStep s).1.2 = (hostStep s).2.inDelaySlot) ∧
  (∀ s : State, (hostStep s).1.1 = .halted ↔ ∃ f, s.status = .stopped f) ∧
  (∀ (s : State) f, (hostStep s).1.1 = .trapped f ↔ s.status = .running ∧ (hostStep s).2.status = .stopped f) ∧
  (∀ s : State, (hostStep s).1.1 = .continued ↔ s.status = .running ∧ (hostStep s).2.status = .running)

/-- How a run under a ceiling ends (R188, R189): in the record the core stopped with, at a self-loop of a running core, or after as many
steps as the ceiling allows, the core still running. -/
def Obligations.HarnessRunEnds : Prop :=
  ∀ n s e t, harnessRun n s = (e, t) →
    (∀ f, e = .trapped f → t.status = .stopped f) ∧
    (∀ a, e = .selfLoop a → t.pc = a ∧ t.status = .running ∧ t.inDelaySlot = false ∧
      ∃ i, InstructionAtPc t i ∧ loopsTo a i = true ∧ takenTarget t i = some a) ∧
    (e = .stepBudgetExceeded → t.status = .running ∧ t = ((fun u => (hostStep u).2)^[n]) s)

/-- R187: inspection of memory is given for provisioned addresses only, and answers the bytes held. -/
def Obligations.InspectionReadsWhatIsHeld : Prop :=
  (∀ (s : State) a n, inspectMem s a n = none ↔ s.config.memSize < a + n) ∧
  (∀ (s : State) a n bs, inspectMem s a n = some bs → bs.length = n ∧ ∀ i (h : i < bs.length), bs[i] = s.mem.read (a + i))

/-- R45: the byte order is fixed at construction, as is the rest of the configuration (R35): no step changes it. -/
def Obligations.ConfigurationIsFixed : Prop :=
  ∀ s t : State, step s = .next t → t.config = s.config
end

