-- ==== Sys2Proof/Laws/Bytes.lean ====
section
/-! SUPPORT. Byte order: the value of the bytes of a word is the word's low part, in either order. -/

namespace Sys2Proof

@[simp] theorem length_leBytes (n : Nat) (v : Word) : (leBytes n v).length = n := by simp [leBytes]
@[simp] theorem length_bytesOf (o : ByteOrder) (n : Nat) (v : Word) : (bytesOf o n v).length = n := by cases o <;> simp [bytesOf]

theorem leValue_lt (bs : List Byte) : leValue bs < 256 ^ bs.length := by
  induction bs with
  | nil => simp [leValue]
  | cons b bs ih => simp only [leValue, List.length_cons, Nat.pow_succ]; omega

theorem valueOf_lt (o : ByteOrder) (bs : List Byte) : valueOf o bs < 256 ^ bs.length := by
  cases o
  · exact leValue_lt bs
  · simpa [valueOf] using leValue_lt bs.reverse

theorem getElem_leBytes {n i : Nat} (v : Word) (h : i < n) : (leBytes n v)[i]'(by simpa using h) = v.extractLsb' (8 * i) 8 := by
  simp [leBytes]

theorem leBytes_succ (n : Nat) (v : Word) : leBytes (n + 1) v = v.extractLsb' 0 8 :: leBytes n (v >>> 8) := by
  simp only [leBytes, List.range_succ_eq_map, List.map_cons, List.map_map, Nat.mul_zero, List.cons.injEq, true_and]
  refine List.map_congr_left fun i _ => ?_
  refine BitVec.eq_of_toNat_eq ?_
  simp [BitVec.extractLsb'_toNat, Nat.mul_add, ← Nat.shiftRight_add, Nat.add_comm]

/-- The low bytes of a word have its low part as their value. -/
theorem leValue_leBytes (n : Nat) (v : Word) : leValue (leBytes n v) = v.toNat % 256 ^ n := by
  induction n generalizing v with
  | zero => simp [leBytes, leValue, Nat.mod_one]
  | succ n ih =>
    rw [leBytes_succ, leValue, ih, Nat.pow_succ, Nat.mul_comm (256 ^ n) 256, Nat.mod_mul]
    simp [Nat.shiftRight_eq_div_pow]

/-- The same, in either byte order. -/
theorem valueOf_bytesOf (o : ByteOrder) (n : Nat) (v : Word) : valueOf o (bytesOf o n v) = v.toNat % 256 ^ n := by
  cases o <;> simp [valueOf, bytesOf, leValue_leBytes]

/-- The value of two fields joined. -/
theorem toNat_append_mul {m n : Nat} (a : BitVec m) (b : BitVec n) : (a ++ b).toNat = a.toNat * 2 ^ n + b.toNat := by
  rw [BitVec.toNat_append, ← Nat.shiftLeft_add_eq_or_of_lt b.isLt, Nat.shiftLeft_eq]

theorem toNat_half (b1 b0 : Byte) : (b1 ++ b0 : BitVec 16).toNat = b1.toNat * 256 + b0.toNat := toNat_append_mul b1 b0

theorem toNat_word (b3 b2 b1 b0 : Byte) :
    (b3 ++ b2 ++ b1 ++ b0 : Word).toNat = ((b3.toNat * 256 + b2.toNat) * 256 + b1.toNat) * 256 + b0.toNat := by
  refine (toNat_append_mul (b3 ++ b2 ++ b1) b0).trans ?_
  rw [toNat_append_mul, toNat_append_mul]
  rfl

end Sys2Proof
end

