-- ==== Sys2Proof/Laws/Decode.lean ====
section
/-! SUPPORT. The bits of an instruction word: the fields of an encoded word, the word of a word's fields, and what each mask of the
opcode table keeps of a word. -/

namespace Sys2Proof

/-! Fields of the three formats (30_encoding.md R62 to R64) -/

section Fields

variable (op funct : BitVec 6) (rs rt rd shamt : BitVec 5) (imm : Imm16) (target : Target26)

@[simp] theorem opField_encodeI : opField (encodeI op rs rt imm) = op := by
  unfold opField encodeI
  rw [BitVec.extractLsb'_append_eq_of_le (by decide), BitVec.extractLsb'_append_eq_of_le (by decide),
    BitVec.extractLsb'_append_eq_of_le (by decide)]
  exact BitVec.extractLsb'_eq_self
@[simp] theorem rsField_encodeI : rsField (encodeI op rs rt imm) = rs := by
  unfold rsField encodeI
  rw [BitVec.extractLsb'_append_eq_of_le (by decide), BitVec.extractLsb'_append_eq_of_le (by decide),
    BitVec.extractLsb'_append_eq_of_add_le (by decide)]
  exact BitVec.extractLsb'_eq_self
@[simp] theorem rtField_encodeI : rtField (encodeI op rs rt imm) = rt := by
  unfold rtField encodeI
  rw [BitVec.extractLsb'_append_eq_of_le (by decide), BitVec.extractLsb'_append_eq_of_add_le (by decide)]
  exact BitVec.extractLsb'_eq_self
@[simp] theorem immField_encodeI : immField (encodeI op rs rt imm) = imm := by
  unfold immField encodeI
  rw [BitVec.extractLsb'_append_eq_of_add_le (by decide)]
  exact BitVec.extractLsb'_eq_self

@[simp] theorem opField_encodeR : opField (encodeR rs rt rd shamt funct) = 0#6 := by
  unfold opField encodeR
  rw [BitVec.extractLsb'_append_eq_of_le (by decide), BitVec.extractLsb'_append_eq_of_le (by decide),
    BitVec.extractLsb'_append_eq_of_le (by decide), BitVec.extractLsb'_append_eq_of_le (by decide),
    BitVec.extractLsb'_append_eq_of_le (by decide)]
  exact BitVec.extractLsb'_eq_self
@[simp] theorem rsField_encodeR : rsField (encodeR rs rt rd shamt funct) = rs := by
  unfold rsField encodeR
  rw [BitVec.extractLsb'_append_eq_of_le (by decide), BitVec.extractLsb'_append_eq_of_le (by decide),
    BitVec.extractLsb'_append_eq_of_le (by decide), BitVec.extractLsb'_append_eq_of_le (by decide),
    BitVec.extractLsb'_append_eq_of_add_le (by decide)]
  exact BitVec.extractLsb'_eq_self
@[simp] theorem rtField_encodeR : rtField (encodeR rs rt rd shamt funct) = rt := by
  unfold rtField encodeR
  rw [BitVec.extractLsb'_append_eq_of_le (by decide), BitVec.extractLsb'_append_eq_of_le (by decide),
    BitVec.extractLsb'_append_eq_of_le (by decide), BitVec.extractLsb'_append_eq_of_add_le (by decide)]
  exact BitVec.extractLsb'_eq_self
@[simp] theorem rdField_encodeR : rdField (encodeR rs rt rd shamt funct) = rd := by
  unfold rdField encodeR
  rw [BitVec.extractLsb'_append_eq_of_le (by decide), BitVec.extractLsb'_append_eq_of_le (by decide),
    BitVec.extractLsb'_append_eq_of_add_le (by decide)]
  exact BitVec.extractLsb'_eq_self
@[simp] theorem shamtField_encodeR : shamtField (encodeR rs rt rd shamt funct) = shamt := by
  unfold shamtField encodeR
  rw [BitVec.extractLsb'_append_eq_of_le (by decide), BitVec.extractLsb'_append_eq_of_add_le (by decide)]
  exact BitVec.extractLsb'_eq_self
@[simp] theorem functField_encodeR : functField (encodeR rs rt rd shamt funct) = funct := by
  unfold functField encodeR
  rw [BitVec.extractLsb'_append_eq_of_add_le (by decide)]
  exact BitVec.extractLsb'_eq_self

@[simp] theorem opField_encodeJ : opField (encodeJ op target) = op := by
  unfold opField encodeJ
  rw [BitVec.extractLsb'_append_eq_of_le (by decide)]
  exact BitVec.extractLsb'_eq_self
@[simp] theorem targetField_encodeJ : targetField (encodeJ op target) = target := by
  unfold targetField encodeJ
  rw [BitVec.extractLsb'_append_eq_of_add_le (by decide)]
  exact BitVec.extractLsb'_eq_self

end Fields

@[simp] theorem regOf_fieldOf (r : RegIdx) : regOf (fieldOf r) = r := rfl
@[simp] theorem fieldOf_regOf (f : BitVec 5) : fieldOf (regOf f) = f := rfl

/-! A word is the format of its fields -/

/-- Joining two neighbouring fields of a word gives the field that spans them. -/
theorem join_fields (w : Word) {hi lo m n : Nat} (h : hi = lo + n) :
    w.extractLsb' hi m ++ w.extractLsb' lo n = w.extractLsb' lo (m + n) :=
  BitVec.extractLsb'_append_extractLsb'_eq_extractLsb' h

theorem encodeI_fields (w : Word) : encodeI (opField w) (rsField w) (rtField w) (immField w) = w := by
  unfold encodeI opField rsField rtField immField
  rw [join_fields w (show 26 = 21 + 5 from rfl), join_fields w (show 21 = 16 + 5 from rfl),
    join_fields w (show 16 = 0 + 16 from rfl)]
  exact BitVec.extractLsb'_eq_self

theorem encodeJ_fields (w : Word) : encodeJ (opField w) (targetField w) = w := by
  unfold encodeJ opField targetField
  rw [join_fields w (show 26 = 0 + 26 from rfl)]
  exact BitVec.extractLsb'_eq_self

theorem encodeR_fields (w : Word) (h : opField w = 0#6) :
    encodeR (rsField w) (rtField w) (rdField w) (shamtField w) (functField w) = w := by
  unfold encodeR
  rw [← h]
  unfold opField rsField rtField rdField shamtField functField
  rw [join_fields w (show 26 = 21 + 5 from rfl), join_fields w (show 21 = 16 + 5 from rfl),
    join_fields w (show 16 = 11 + 5 from rfl), join_fields w (show 11 = 6 + 5 from rfl),
    join_fields w (show 6 = 0 + 6 from rfl)]
  exact BitVec.extractLsb'_eq_self

/-! What the masks keep (30_encoding.md R69) -/

theorem and_opMask (w : Word) : w &&& opMask = opField w ++ 0#26 := by
  refine BitVec.eq_of_getLsbD_eq fun i hi => ?_
  simp only [opMask, opField, BitVec.getLsbD_and, BitVec.getLsbD_append, BitVec.getLsbD_extractLsb']
  interval_cases i <;> simp

theorem and_luiMask (w : Word) : w &&& luiMask = opField w ++ rsField w ++ 0#21 := by
  refine BitVec.eq_of_getLsbD_eq fun i hi => ?_
  simp only [luiMask, opField, rsField, BitVec.getLsbD_and, BitVec.getLsbD_append, BitVec.getLsbD_extractLsb']
  interval_cases i <;> simp

theorem and_regMask (w : Word) : w &&& regMask = opField w ++ 0#15 ++ shamtField w ++ functField w := by
  refine BitVec.eq_of_getLsbD_eq fun i hi => ?_
  simp only [regMask, opField, shamtField, functField, BitVec.getLsbD_and, BitVec.getLsbD_append, BitVec.getLsbD_extractLsb']
  interval_cases i <;> simp

theorem and_shiftMask (w : Word) : w &&& shiftMask = opField w ++ rsField w ++ 0#15 ++ functField w := by
  refine BitVec.eq_of_getLsbD_eq fun i hi => ?_
  simp only [shiftMask, opField, rsField, functField, BitVec.getLsbD_and, BitVec.getLsbD_append, BitVec.getLsbD_extractLsb']
  interval_cases i <;> simp

/-- Joined fields are equal when each is. -/
theorem append_inj {m n : Nat} {a c : BitVec m} {b d : BitVec n} : a ++ b = c ++ d ↔ a = c ∧ b = d := by
  refine ⟨fun h => ⟨?_, ?_⟩, fun h => by rw [h.1, h.2]⟩
  · have h := congrArg (BitVec.extractLsb' n m) h
    rwa [BitVec.extractLsb'_append_eq_left, BitVec.extractLsb'_append_eq_left] at h
  · have h := congrArg (BitVec.extractLsb' 0 n) h
    rw [BitVec.extractLsb'_append_eq_of_add_le (by omega), BitVec.extractLsb'_append_eq_of_add_le (by omega)] at h
    rwa [BitVec.extractLsb'_eq_self, BitVec.extractLsb'_eq_self] at h

theorem opMask_iff (w : Word) (op : BitVec 6) : w &&& opMask = op ++ 0#26 ↔ opField w = op := by
  rw [and_opMask, append_inj]; exact and_iff_left rfl

theorem luiMask_iff (w : Word) (op : BitVec 6) (rs : BitVec 5) :
    w &&& luiMask = op ++ rs ++ 0#21 ↔ opField w = op ∧ rsField w = rs := by
  rw [and_luiMask, append_inj, append_inj]; exact and_iff_left rfl

theorem regMask_iff (w : Word) (op : BitVec 6) (sa : BitVec 5) (fn : BitVec 6) :
    w &&& regMask = op ++ 0#15 ++ sa ++ fn ↔ opField w = op ∧ shamtField w = sa ∧ functField w = fn := by
  rw [and_regMask, append_inj, append_inj, append_inj]; tauto

theorem shiftMask_iff (w : Word) (op : BitVec 6) (rs : BitVec 5) (fn : BitVec 6) :
    w &&& shiftMask = op ++ rs ++ 0#15 ++ fn ↔ opField w = op ∧ rsField w = rs ∧ functField w = fn := by
  rw [and_shiftMask, append_inj, append_inj, append_inj]; tauto

/-! What the three shapes of a decoder's case accept -/

theorem threeReg_ok {w : Word} {mk : RegIdx → RegIdx → RegIdx → Instr} {a b c : BitVec 5} {i : Instr}
    (h : threeReg w mk a b c = .ok i) : shamtField w = 0#5 ∧ i = mk (regOf a) (regOf b) (regOf c) := by
  unfold threeReg at h
  split at h
  · exact ⟨‹_›, (Except.ok.inj h).symm⟩
  · nomatch h

theorem shiftImm_ok {w : Word} {mk : RegIdx → RegIdx → Shamt → Instr} {i : Instr} (h : shiftImm w mk = .ok i) :
    rsField w = 0#5 ∧ i = mk (regOf (rdField w)) (regOf (rtField w)) (shamtField w) := by
  unfold shiftImm at h
  split at h
  · exact ⟨‹_›, (Except.ok.inj h).symm⟩
  · nomatch h

theorem decode_special {w : Word} (h : opField w = 0#6) : decode w = decodeSpecial w := by unfold decode; rw [h]; rfl

end Sys2Proof
end

