-- ==== Sys2Proof/Laws/Memory.lean ====
section
/-! SUPPORT. Memory: reading after writing, and that every operation keeps the canonical form. -/

namespace Sys2Proof.Machine

@[simp] theorem Memory.read_nil (a : Nat) : Memory.read [] a = unlistedByte := rfl

theorem Memory.wf_nil : Memory.wf [] := ⟨List.Pairwise.nil, by simp⟩

theorem Memory.wf_cons {b : Nat} {v : Byte} {m : Memory} :
    Memory.wf ((b, v) :: m) ↔ (∀ c ∈ m, b < c.1) ∧ v ≠ unlistedByte ∧ Memory.wf m := by
  simp only [Memory.wf, List.pairwise_cons, List.mem_cons, forall_eq_or_imp]
  tauto

/-- An address below every listed one is unlisted. -/
theorem Memory.read_of_lt {m : Memory} {a : Nat} (h : ∀ c ∈ m, a < c.1) : m.read a = unlistedByte := by
  induction m with
  | nil => rfl
  | cons c m ih =>
    obtain ⟨b, v⟩ := c
    have hb : a < b := h _ (List.mem_cons_self ..)
    simp [Memory.read, Nat.ne_of_lt hb, ih fun c hc => h c (List.mem_cons_of_mem _ hc)]

/-- A write lists no new address but its own. -/
theorem Memory.mem_write {m : Memory} {a : Nat} {v : Byte} {c : Host.Cell} (h : c ∈ m.write a v) : c ∈ m ∨ c = (a, v) := by
  induction m with
  | nil => unfold Memory.write at h; split at h <;> simp_all
  | cons d m ih =>
    obtain ⟨b, w⟩ := d
    unfold Memory.write at h
    split at h
    · split at h <;> simp_all [or_comm, or_left_comm]
    · split at h
      · split at h <;> simp_all; tauto
      · rcases List.mem_cons.mp h with rfl | h
        · exact .inl (List.mem_cons_self ..)
        · exact (ih h).imp_left (List.mem_cons_of_mem _)

theorem Memory.wf_write {m : Memory} (h : m.wf) (a : Nat) (v : Byte) : (m.write a v).wf := by
  induction m with
  | nil => unfold Memory.write; split <;> simp_all [Memory.wf]
  | cons d m ih =>
    obtain ⟨b, w⟩ := d
    obtain ⟨hlt, hw, hm⟩ := Memory.wf_cons.mp h
    unfold Memory.write
    split
    · split
      · exact h
      · rename_i hab hv
        refine Memory.wf_cons.mpr ⟨fun c hc => ?_, hv, h⟩
        rcases List.mem_cons.mp hc with rfl | hc
        · exact hab
        · exact Nat.lt_trans hab (hlt c hc)
    · split
      · split
        · exact hm
        · rename_i hab hv
          exact Memory.wf_cons.mpr ⟨hab ▸ hlt, hv, hm⟩
      · rename_i h1 h2
        refine Memory.wf_cons.mpr ⟨fun c hc => ?_, hw, ih hm⟩
        rcases Memory.mem_write hc with hc | rfl
        · exact hlt c hc
        · simp only; omega

/-- Reading after writing one byte. -/
theorem Memory.read_write {m : Memory} (h : m.wf) (a c : Nat) (v : Byte) :
    (m.write a v).read c = if c = a then v else m.read c := by
  induction m with
  | nil => unfold Memory.write; split <;> simp_all [Memory.read, eq_comm]
  | cons d m ih =>
    obtain ⟨b, w⟩ := d
    obtain ⟨hlt, hw, hm⟩ := Memory.wf_cons.mp h
    unfold Memory.write
    split
    · rename_i hab
      split
      · rename_i hv
        by_cases hc : c = a
        · subst hc
          rw [if_pos rfl, hv]
          refine Memory.read_of_lt fun d hd => ?_
          rcases List.mem_cons.mp hd with rfl | hd
          · exact hab
          · exact Nat.lt_trans hab (hlt d hd)
        · rw [if_neg hc]
      · simp [Memory.read]
    · split
      · rename_i _ hab
        subst hab
        split
        · rename_i hv
          by_cases hc : c = a
          · subst hc; rw [if_pos rfl, hv]; exact Memory.read_of_lt hlt
          · simp [Memory.read, hc]
        · by_cases hc : c = a <;> simp [Memory.read, hc]
      · rename_i h1 h2
        simp only [Memory.read, ih hm]
        by_cases hcb : c = b
        · subst hcb; simp [Ne.symm h2]
        · simp [hcb]

theorem Memory.wf_writeBytes {m : Memory} (h : m.wf) (a : Nat) (bs : List Byte) : (m.writeBytes a bs).wf := by
  induction bs generalizing m a with
  | nil => exact h
  | cons b bs ih => exact ih (Memory.wf_write h a b) (a + 1)

/-- Writing bytes lists no new address outside their range. -/
theorem Memory.mem_writeBytes {m : Memory} {a : Nat} {bs : List Byte} {c : Host.Cell} (h : c ∈ m.writeBytes a bs) :
    c ∈ m ∨ (a ≤ c.1 ∧ c.1 < a + bs.length) := by
  induction bs generalizing m a with
  | nil => exact .inl h
  | cons b bs ih =>
    simp only [List.length_cons]
    rcases ih h with h | h
    · rcases Memory.mem_write h with h | rfl
      · exact .inl h
      · exact .inr (by simp)
    · exact .inr (by omega)

/-- Reading outside bytes just written. -/
theorem Memory.read_writeBytes_outside {m : Memory} (h : m.wf) {a c : Nat} {bs : List Byte} (hc : c < a ∨ a + bs.length ≤ c) :
    (m.writeBytes a bs).read c = m.read c := by
  induction bs generalizing m a with
  | nil => rfl
  | cons b bs ih =>
    simp only [List.length_cons] at hc
    rw [Memory.writeBytes, ih (Memory.wf_write h a b) (by omega), Memory.read_write h, if_neg (by omega)]

/-- Reading bytes just written. -/
theorem Memory.read_writeBytes_inside {m : Memory} (h : m.wf) {a : Nat} {bs : List Byte} {i : Nat} (hi : i < bs.length) :
    (m.writeBytes a bs).read (a + i) = bs[i] := by
  induction bs generalizing m a i with
  | nil => simp at hi
  | cons b bs ih =>
    rw [Memory.writeBytes]
    cases i with
    | zero => rw [Memory.read_writeBytes_outside (Memory.wf_write h a b) (by omega), Memory.read_write h]; simp
    | succ i =>
      have := ih (m := m.write a b) (a := a + 1) (i := i) (Memory.wf_write h a b) (by simpa using hi)
      simpa [Nat.add_assoc, Nat.add_comm 1 i] using this

@[simp] theorem Memory.length_readBytes (m : Memory) (a n : Nat) : (m.readBytes a n).length = n := by simp [Memory.readBytes]

/-- Reading back the bytes just written. -/
theorem Memory.readBytes_writeBytes {m : Memory} (h : m.wf) (a : Nat) (bs : List Byte) :
    (m.writeBytes a bs).readBytes a bs.length = bs := by
  refine List.ext_getElem (by simp) fun i h1 h2 => ?_
  simpa [Memory.readBytes] using Memory.read_writeBytes_inside h h2

/-- Reading bytes apart from those just written. -/
theorem Memory.readBytes_writeBytes_disjoint {m : Memory} (h : m.wf) {a c n : Nat} {bs : List Byte}
    (hd : c + n ≤ a ∨ a + bs.length ≤ c) : (m.writeBytes a bs).readBytes c n = m.readBytes c n := by
  refine List.map_congr_left fun i hi => ?_
  have := List.mem_range.mp hi
  exact Memory.read_writeBytes_outside h (by omega)

/-- Memories that read the same give the same bytes. -/
theorem Memory.readBytes_congr {m k : Memory} (h : ∀ a, k.read a = m.read a) (a n : Nat) : k.readBytes a n = m.readBytes a n := by
  simp [Memory.readBytes, h]

end Sys2Proof.Machine
end

