-- ==== Sys2Proof/Laws/State.lean ====
section
/-! SUPPORT. The small lemmas of the state's updates: one per field per update, so that no later proof unfolds a record update. -/

namespace Sys2Proof.Machine

/-! Registers -/

@[simp] theorem State.reg_zero (s : State) : s.reg 0 = 0 := by simp [State.reg]

theorem State.reg_of_ne_zero (s : State) {r : RegIdx} (h : r ≠ 0) : s.reg r = s.x[r] := by simp [State.reg, h]

@[simp] theorem State.writeReg_zero (s : State) (v : Word) : s.writeReg 0 v = s := by simp [State.writeReg]
@[simp] theorem State.writeReg_config (s : State) (r : RegIdx) (v : Word) : (s.writeReg r v).config = s.config := by
  unfold State.writeReg; split <;> rfl
@[simp] theorem State.writeReg_pc (s : State) (r : RegIdx) (v : Word) : (s.writeReg r v).pc = s.pc := by
  unfold State.writeReg; split <;> rfl
@[simp] theorem State.writeReg_control (s : State) (r : RegIdx) (v : Word) : (s.writeReg r v).control = s.control := by
  unfold State.writeReg; split <;> rfl
@[simp] theorem State.writeReg_mem (s : State) (r : RegIdx) (v : Word) : (s.writeReg r v).mem = s.mem := by
  unfold State.writeReg; split <;> rfl
@[simp] theorem State.writeReg_status (s : State) (r : RegIdx) (v : Word) : (s.writeReg r v).status = s.status := by
  unfold State.writeReg; split <;> rfl

/-- What every register reads after one register is written. -/
theorem State.reg_writeReg (s : State) (r q : RegIdx) (v : Word) :
    (s.writeReg r v).reg q = if q = r ∧ r ≠ 0 then v else s.reg q := by
  by_cases hr : r = 0
  · subst hr; simp
  · by_cases hq : q = 0
    · subst hq
      have : ¬ ((0 : RegIdx) = r) := fun h => hr h.symm
      simp [this]
    · rw [State.reg_of_ne_zero _ hq, State.reg_of_ne_zero _ hq]
      by_cases h : q = r
      · subst h; simp [State.writeReg, hr]
      · have hv : r.val ≠ q.val := fun h0 => h (Fin.ext h0.symm)
        simp [State.writeReg, hr, h, hv]

/-- The storage of register 0 is never written. -/
@[simp] theorem State.writeReg_x_zero (s : State) (r : RegIdx) (v : Word) : (s.writeReg r v).x[0] = s.x[0] := by
  unfold State.writeReg
  split
  · rfl
  · rename_i h
    exact Vector.getElem_set_ne r.isLt (by omega) fun h0 => h (Fin.ext h0)

/-- Two states with the same register storage read the same. -/
theorem State.reg_congr {s t : State} (h : t.x = s.x) (q : RegIdx) : t.reg q = s.reg q := by simp [State.reg, h]

/-! Stores -/

@[simp] theorem State.storeBytes_config (s : State) (a : Word) (w : AccessWidth) (v : Word) :
    (s.storeBytes a w v).config = s.config := rfl
@[simp] theorem State.storeBytes_x (s : State) (a : Word) (w : AccessWidth) (v : Word) : (s.storeBytes a w v).x = s.x := rfl
@[simp] theorem State.storeBytes_pc (s : State) (a : Word) (w : AccessWidth) (v : Word) : (s.storeBytes a w v).pc = s.pc := rfl
@[simp] theorem State.storeBytes_control (s : State) (a : Word) (w : AccessWidth) (v : Word) :
    (s.storeBytes a w v).control = s.control := rfl
@[simp] theorem State.storeBytes_status (s : State) (a : Word) (w : AccessWidth) (v : Word) :
    (s.storeBytes a w v).status = s.status := rfl
@[simp] theorem State.storeBytes_reg (s : State) (a : Word) (w : AccessWidth) (v : Word) (q : RegIdx) :
    (s.storeBytes a w v).reg q = s.reg q := rfl
@[simp] theorem State.storeBytes_mem (s : State) (a : Word) (w : AccessWidth) (v : Word) :
    (s.storeBytes a w v).mem = s.mem.writeBytes a.toNat (bytesOf s.config.byteOrder w.bytes v) := rfl

/-! The advance -/

/-- An advance changes nothing but `pc` and the delay-slot state. -/
theorem State.advance_eq (s : State) (b : Option Word) : ∃ p c, s.advance b = { s with pc := p, control := c } := by
  unfold State.advance
  split
  · exact ⟨s.pc + 4, s.control, rfl⟩
  · exact ⟨_, _, rfl⟩
  · exact ⟨_, _, rfl⟩
  · unfold State.delaySlotBranch
    split
    · exact ⟨s.pc, s.control, rfl⟩
    · exact ⟨_, _, rfl⟩
    · exact ⟨_, _, rfl⟩
    · exact ⟨_, _, rfl⟩

@[simp] theorem State.advance_config (s : State) (b : Option Word) : (s.advance b).config = s.config := by
  obtain ⟨p, c, h⟩ := s.advance_eq b; rw [h]
@[simp] theorem State.advance_x (s : State) (b : Option Word) : (s.advance b).x = s.x := by
  obtain ⟨p, c, h⟩ := s.advance_eq b; rw [h]
@[simp] theorem State.advance_mem (s : State) (b : Option Word) : (s.advance b).mem = s.mem := by
  obtain ⟨p, c, h⟩ := s.advance_eq b; rw [h]
@[simp] theorem State.advance_status (s : State) (b : Option Word) : (s.advance b).status = s.status := by
  obtain ⟨p, c, h⟩ := s.advance_eq b; rw [h]
@[simp] theorem State.advance_reg (s : State) (b : Option Word) (q : RegIdx) : (s.advance b).reg q = s.reg q :=
  State.reg_congr (s.advance_x b) q

theorem State.advance_normal_none {s : State} (h : s.control = .normal) : s.advance none = { s with pc := s.pc + 4 } := by
  simp [State.advance, h]
theorem State.advance_normal_some {s : State} (h : s.control = .normal) (t : Word) :
    s.advance (some t) = { s with pc := s.pc + 4, control := .delaySlotPending t } := by simp [State.advance, h]
theorem State.advance_pending_none {s : State} {p : Word} (h : s.control = .delaySlotPending p) :
    s.advance none = { s with pc := p, control := .normal } := by simp [State.advance, h]
theorem State.advance_pending_some {s : State} {p : Word} (h : s.control = .delaySlotPending p) (t : Word) :
    s.advance (some t) = s.delaySlotBranch p t := by simp [State.advance, h]

/-! Taking a fatal condition -/

@[simp] theorem State.takeFatal_config (s : State) (c : Cause) (w : Option Word) : (s.takeFatal c w).config = s.config := rfl
@[simp] theorem State.takeFatal_x (s : State) (c : Cause) (w : Option Word) : (s.takeFatal c w).x = s.x := rfl
@[simp] theorem State.takeFatal_pc (s : State) (c : Cause) (w : Option Word) : (s.takeFatal c w).pc = s.pc := rfl
@[simp] theorem State.takeFatal_control (s : State) (c : Cause) (w : Option Word) : (s.takeFatal c w).control = s.control := rfl
@[simp] theorem State.takeFatal_mem (s : State) (c : Cause) (w : Option Word) : (s.takeFatal c w).mem = s.mem := rfl
@[simp] theorem State.takeFatal_status (s : State) (c : Cause) (w : Option Word) :
    (s.takeFatal c w).status = .stopped (s.faultRecord c w) := rfl
@[simp] theorem State.takeFatal_reg (s : State) (c : Cause) (w : Option Word) (q : RegIdx) :
    (s.takeFatal c w).reg q = s.reg q := rfl
@[simp] theorem State.faultRecord_cause (s : State) (c : Cause) (w : Option Word) : (s.faultRecord c w).cause = c := rfl
@[simp] theorem State.faultRecord_pc (s : State) (c : Cause) (w : Option Word) : (s.faultRecord c w).pc = s.pc := rfl
@[simp] theorem State.faultRecord_word (s : State) (c : Cause) (w : Option Word) : (s.faultRecord c w).word = w := rfl
@[simp] theorem State.faultRecord_pending (s : State) (c : Cause) (w : Option Word) :
    (s.faultRecord c w).pending = s.pendingTarget := rfl

/-! The delay-slot state's two readings (10_state.md R27) -/

theorem State.inDelaySlot_iff (s : State) : s.inDelaySlot = true ↔ ∃ t, s.pendingTarget = some t := by
  unfold State.inDelaySlot State.pendingTarget; cases s.control <;> simp
theorem State.pendingTarget_eq_some (s : State) (t : Word) : s.pendingTarget = some t ↔ s.control = .delaySlotPending t := by
  unfold State.pendingTarget; cases s.control <;> simp
theorem State.inDelaySlot_eq_false (s : State) : s.inDelaySlot = false ↔ s.control = .normal := by
  unfold State.inDelaySlot; cases s.control <;> simp

end Sys2Proof.Machine
end

