-- ==== Sys2Proof/Laws/Ops.lean ====
section
/-! SUPPORT. One lemma per shared operation: bounds, reads of each width, the commit, loads, stores, transfers, fetch and decode. -/

namespace Sys2Proof.Machine

/-! Bounds and reads -/

theorem State.inBounds_iff (s : State) (a : Word) (w : AccessWidth) : s.inBounds a w = true ↔ a.toNat + w.bytes ≤ s.config.memSize := by
  simp [State.inBounds]

theorem State.memRead_inBounds {s : State} {a : Word} {w : AccessWidth} (k : AccessKind) (h : a.toNat + w.bytes ≤ s.config.memSize) :
    s.memRead a w k = .ok (BitVec.ofNat 32 (valueOf s.config.byteOrder (s.mem.readBytes a.toNat w.bytes))) :=
  if_pos ((s.inBounds_iff a w).mpr h)

theorem State.memRead_outOfBounds {s : State} {a : Word} {w : AccessWidth} (k : AccessKind)
    (h : s.config.memSize < a.toNat + w.bytes) : s.memRead a w k = .error (.outOfBoundsAccess a w k) :=
  if_neg fun hb => absurd ((s.inBounds_iff a w).mp hb) (by omega)

/-- A read of one byte is that byte. -/
theorem valueOf_byte (s : State) (a : Nat) :
    BitVec.ofNat 32 (valueOf s.config.byteOrder (s.mem.readBytes a 1)) = (s.mem.read a).setWidth 32 := by
  refine BitVec.eq_of_toNat_eq ?_
  cases s.config.byteOrder <;> simp [valueOf, Memory.readBytes, leValue]

/-- A read of two bytes is the halfword they spell. -/
theorem valueOf_half (s : State) (a : Nat) :
    BitVec.ofNat 32 (valueOf s.config.byteOrder (s.mem.readBytes a 2)) = (halfAt s a).setWidth 32 := by
  refine BitVec.eq_of_toNat_eq ?_
  have h0 := (s.mem.read a).isLt
  have h1 := (s.mem.read (a + 1)).isLt
  unfold halfAt
  cases s.config.byteOrder <;> simp [valueOf, Memory.readBytes, leValue, List.range_succ, toNat_half] <;> omega

/-- A read of four bytes is the word they spell. -/
theorem valueOf_word (s : State) (a : Nat) :
    BitVec.ofNat 32 (valueOf s.config.byteOrder (s.mem.readBytes a 4)) = wordAt s a := by
  refine BitVec.eq_of_toNat_eq ?_
  have h0 := (s.mem.read a).isLt
  have h1 := (s.mem.read (a + 1)).isLt
  have h2 := (s.mem.read (a + 2)).isLt
  have h3 := (s.mem.read (a + 3)).isLt
  unfold wordAt
  cases s.config.byteOrder <;> simp [valueOf, Memory.readBytes, leValue, List.range_succ, toNat_word] <;> omega

/-- Fetching and decoding the instruction at `pc`. -/
theorem State.fetch_inBounds {s : State} (h : s.pc.toNat + 4 ≤ s.config.memSize) : s.fetch = .ok (wordAt s s.pc.toNat) := by
  unfold State.fetch
  rw [State.memRead_inBounds .fetch h]
  exact congrArg Except.ok (valueOf_word s s.pc.toNat)

theorem State.fetchDecode_at {s : State} {i : Instr} (h : InstructionAtPc s i) : s.fetchDecode = .ok (wordAt s s.pc.toNat, i) := by
  unfold State.fetchDecode
  rw [State.fetch_inBounds h.1]
  simp only [h.2]

/-! The commit -/

@[simp] theorem State.commit_config (s : State) (e : Effect) : (s.commit e).config = s.config := by
  obtain ⟨r, m, b⟩ := e; cases r <;> cases m <;> simp [State.commit, State.applyRegister, State.applyStore]
@[simp] theorem State.commit_status (s : State) (e : Effect) : (s.commit e).status = s.status := by
  obtain ⟨r, m, b⟩ := e; cases r <;> cases m <;> simp [State.commit, State.applyRegister, State.applyStore]

/-- Where an advance goes depends on the policy, `pc` and the delay-slot state alone. -/
theorem State.advance_congr {s u : State} (hcf : u.config = s.config) (hpc : u.pc = s.pc) (hct : u.control = s.control)
    (b : Option Word) : (u.advance b).pc = (s.advance b).pc ∧ (u.advance b).control = (s.advance b).control := by
  cases h : s.control with
  | normal =>
    rw [h] at hct
    cases b
    · simp [State.advance_normal_none h, State.advance_normal_none hct, hpc, h, hct]
    · simp [State.advance_normal_some h, State.advance_normal_some hct, hpc]
  | delaySlotPending p =>
    rw [h] at hct
    cases b
    · simp [State.advance_pending_none h, State.advance_pending_none hct]
    · simp only [State.advance_pending_some h, State.advance_pending_some hct, State.delaySlotBranch, hcf]
      cases s.config.branchPolicy <;> simp [hpc, h, hct]

/-- What a commit leaves `pc` and the delay-slot state at is what the advance of the state before it would. -/
theorem State.commit_pc_control (s : State) (e : Effect) :
    (s.commit e).pc = (s.advance e.branch).pc ∧ (s.commit e).control = (s.advance e.branch).control := by
  obtain ⟨r, m, b⟩ := e
  exact State.advance_congr (by cases r <;> cases m <;> simp [State.applyRegister, State.applyStore])
    (by cases r <;> cases m <;> simp [State.applyRegister, State.applyStore])
    (by cases r <;> cases m <;> simp [State.applyRegister, State.applyStore]) b

/-- The commit of a register write. -/
theorem State.commit_writes (s : State) (r : RegIdx) (v : Word) : s.commit (.writes r v) = (s.writeReg r v).advance none := rfl

/-- The commit of a store. -/
theorem State.commit_stores (s : State) (a : Word) (w : AccessWidth) (v : Word) :
    s.commit (.stores a w v) = (s.storeBytes a w v).advance none := rfl

/-- The commit of a transfer, taken or not. -/
theorem State.commit_branch (s : State) (b : Option Word) : s.commit { branch := b } = s.advance b := rfl

/-- An advance without a branch. -/
theorem State.advancesPast {s u : State} (hpc : u.pc = s.pc) (hct : u.control = s.control) : AdvancesPast s (u.advance none) := by
  unfold AdvancesPast
  cases h : s.control with
  | normal => rw [h] at hct; rw [State.advance_normal_none hct]; exact ⟨by rw [← hpc], hct⟩
  | delaySlotPending p => rw [h] at hct; rw [State.advance_pending_none hct]; exact ⟨rfl, rfl⟩

/-- The whole change of a register write. -/
theorem State.writesRegister (s : State) (r : RegIdx) (v : Word) : WritesRegister s (s.commit (.writes r v)) r v := by
  rw [State.commit_writes]
  exact ⟨fun q => by rw [State.advance_reg, State.reg_writeReg], fun a => by simp, ⟨by simp, by simp⟩,
    State.advancesPast (by simp) (by simp)⟩

/-- The whole change of a store. -/
theorem State.storesBytes {s : State} (h : s.mem.wf) (a : Word) (w : AccessWidth) (v : Word) :
    StoresBytes s (s.commit (.stores a w v)) a.toNat (bytesOf s.config.byteOrder w.bytes v) := by
  rw [State.commit_stores]
  refine ⟨⟨fun i hi => ?_, fun c hc => ?_⟩, fun q => by simp, ⟨by simp, by simp⟩, State.advancesPast rfl rfl⟩
  · rw [State.advance_mem, State.storeBytes_mem]; exact Memory.read_writeBytes_inside h hi
  · rw [State.advance_mem, State.storeBytes_mem]; exact Memory.read_writeBytes_outside h hc

/-- An advance touches neither registers nor memory. -/
theorem State.onlyControl (s : State) (b : Option Word) : OnlyControl s (s.advance b) :=
  ⟨fun q => by simp, fun a => by simp, by simp, by simp⟩

/-! Loads, stores, transfers -/

theorem State.load_inBounds {s : State} {w : AccessWidth} {rs : RegIdx} {imm : Imm16} (ext : Word → Word) (rt : RegIdx)
    (h : (s.effectiveAddress rs imm).toNat + w.bytes ≤ s.config.memSize) :
    s.load w ext rt rs imm = .ok (.writes rt
      (ext (BitVec.ofNat 32 (valueOf s.config.byteOrder (s.mem.readBytes (s.effectiveAddress rs imm).toNat w.bytes))))) := by
  unfold State.load; rw [State.memRead_inBounds .load h]

theorem State.load_outOfBounds {s : State} {w : AccessWidth} {rs : RegIdx} {imm : Imm16} (ext : Word → Word) (rt : RegIdx)
    (h : s.config.memSize < (s.effectiveAddress rs imm).toNat + w.bytes) :
    s.load w ext rt rs imm = .error (.outOfBoundsAccess (s.effectiveAddress rs imm) w .load) := by
  unfold State.load; rw [State.memRead_outOfBounds .load h]

theorem State.store_inBounds {s : State} {w : AccessWidth} {rs : RegIdx} {imm : Imm16} (rt : RegIdx)
    (h : (s.effectiveAddress rs imm).toNat + w.bytes ≤ s.config.memSize) :
    s.store w rt rs imm = .ok (.stores (s.effectiveAddress rs imm) w (s.reg rt)) := if_pos ((s.inBounds_iff _ w).mpr h)

theorem State.store_outOfBounds {s : State} {w : AccessWidth} {rs : RegIdx} {imm : Imm16} (rt : RegIdx)
    (h : s.config.memSize < (s.effectiveAddress rs imm).toNat + w.bytes) :
    s.store w rt rs imm = .error (.outOfBoundsAccess (s.effectiveAddress rs imm) w .store) :=
  if_neg fun hb => absurd ((s.inBounds_iff _ w).mp hb) (by omega)

theorem State.transfer_rejected {s : State} (e : Effect) (h : s.inDelaySlot = true) (hp : s.config.branchPolicy = .reject) :
    s.transfer e = .error .branchInDelaySlot := by
  unfold State.transfer State.branchGuard; rw [if_pos ⟨h, hp⟩]

theorem State.transfer_allowed {s : State} (e : Effect) (h : ¬ (s.inDelaySlot = true ∧ s.config.branchPolicy = .reject)) :
    s.transfer e = .ok e := by
  unfold State.transfer State.branchGuard; rw [if_neg h]

@[simp] theorem State.finish_ok (s : State) (e : Effect) : s.finish (.ok e) = .next (s.commit e) := rfl
@[simp] theorem State.finish_error (s : State) (c : Cause) : s.finish (.error c) = .fault (.fatal c) := rfl

/-- Narrowing a value undoes its zero extension. -/
theorem narrow_widen {n : Nat} (b : BitVec n) (h : n ≤ 32) : (b.setWidth 32).setWidth n = b := by
  rw [BitVec.setWidth_setWidth_of_le _ h, BitVec.setWidth_eq]

theorem signExtendFrom_byte (b : Byte) : signExtendFrom .byte (b.setWidth 32) = b.signExtend 32 :=
  congrArg (BitVec.signExtend 32) (narrow_widen b (by decide))
theorem signExtendFrom_half (b : BitVec 16) : signExtendFrom .half (b.setWidth 32) = b.signExtend 32 :=
  congrArg (BitVec.signExtend 32) (narrow_widen b (by decide))
theorem zeroExtendFrom_byte (b : Byte) : zeroExtendFrom .byte (b.setWidth 32) = b.setWidth 32 :=
  congrArg (BitVec.setWidth 32) (narrow_widen b (by decide))
theorem zeroExtendFrom_half (b : BitVec 16) : zeroExtendFrom .half (b.setWidth 32) = b.setWidth 32 :=
  congrArg (BitVec.setWidth 32) (narrow_widen b (by decide))

/-- The registers after a commit. -/
theorem State.commit_reg (s : State) (e : Effect) (q : RegIdx) : (s.commit e).reg q = (s.applyRegister e.register).reg q := by
  obtain ⟨r, m, b⟩ := e
  cases m <;> simp [State.commit, State.applyStore]

/-- The memory after a commit. -/
theorem State.commit_mem (s : State) (e : Effect) : (s.commit e).mem = (s.applyStore e.store).mem := by
  obtain ⟨r, m, b⟩ := e
  cases r <;> cases m <;> simp [State.commit, State.applyStore, State.applyRegister]

/-! The bytes of a store, and what they spell -/

theorem bytesOf_byte (s : State) (v : Word) : bytesOf s.config.byteOrder 1 v = [v.extractLsb' 0 8] := by
  unfold bytesOf leBytes; cases s.config.byteOrder <;> rfl
theorem bytesOf_half (s : State) (v : Word) : bytesOf s.config.byteOrder 2 v = halfBytes s v := by
  unfold halfBytes bytesOf leBytes; cases s.config.byteOrder <;> rfl
theorem bytesOf_word (s : State) (v : Word) : bytesOf s.config.byteOrder 4 v = wordBytes s v := by
  unfold wordBytes bytesOf leBytes; cases s.config.byteOrder <;> rfl

/-- The word at an address depends on the configuration and memory alone. -/
theorem wordAt_congr {s t : State} (hc : t.config = s.config) (hm : t.mem = s.mem) (a : Nat) : wordAt t a = wordAt s a := by
  unfold wordAt; rw [hc, hm]

/-- Where the bytes of a halfword lie, that halfword is read. -/
theorem halfAt_of_bytes {s t : State} {a : Nat} {v : Word} (hc : t.config = s.config)
    (h : ∀ i (h : i < (halfBytes s v).length), t.mem.read (a + i) = (halfBytes s v)[i]) : halfAt t a = v.extractLsb' 0 16 := by
  have hl : (halfBytes s v).length = 2 := by unfold halfBytes; split <;> rfl
  have get : ∀ i, i < 2 → some (t.mem.read (a + i)) = (halfBytes s v)[i]? := fun i hi => by
    rw [List.getElem?_eq_getElem (by omega)]; exact congrArg some (h i (by omega))
  have h0 := get 0 (by omega)
  have h1 := get 1 (by omega)
  unfold halfBytes at h0 h1
  unfold halfAt
  rw [hc]
  cases ho : s.config.byteOrder <;> rw [ho] at h0 h1 <;> simp at h0 h1 ⊢ <;> rw [h0, h1] <;>
    exact BitVec.extractLsb'_append_extractLsb'_eq_extractLsb' (show 8 = 0 + 8 from rfl)

/-- Where the bytes of a word lie, that word is read. -/
theorem wordAt_of_bytes {s t : State} {a : Nat} {v : Word} (hc : t.config = s.config)
    (h : ∀ i (h : i < (wordBytes s v).length), t.mem.read (a + i) = (wordBytes s v)[i]) : wordAt t a = v := by
  have hl : (wordBytes s v).length = 4 := by unfold wordBytes; split <;> rfl
  have get : ∀ i, i < 4 → some (t.mem.read (a + i)) = (wordBytes s v)[i]? := fun i hi => by
    rw [List.getElem?_eq_getElem (by omega)]; exact congrArg some (h i (by omega))
  have h0 := get 0 (by omega)
  have h1 := get 1 (by omega)
  have h2 := get 2 (by omega)
  have h3 := get 3 (by omega)
  unfold wordBytes at h0 h1 h2 h3
  unfold wordAt
  rw [hc]
  cases ho : s.config.byteOrder <;> rw [ho] at h0 h1 h2 h3 <;> simp at h0 h1 h2 h3 ⊢ <;> rw [h0, h1, h2, h3] <;>
    rw [BitVec.extractLsb'_append_extractLsb'_eq_extractLsb' (show 24 = 16 + 8 from rfl),
      BitVec.extractLsb'_append_extractLsb'_eq_extractLsb' (show 16 = 8 + 8 from rfl),
      BitVec.extractLsb'_append_extractLsb'_eq_extractLsb' (show 8 = 0 + 8 from rfl)] <;>
    exact BitVec.extractLsb'_eq_self

/-! Immediates as numbers -/

theorem toNat_eq_toInt_emod (v : Word) : (v.toNat : Int) = v.toInt % 2 ^ 32 := by
  have h := v.isLt
  rw [BitVec.toInt_eq_toNat_cond]; split <;> omega

theorem toInt_signImm (imm : Imm16) : (signImm imm).toInt = imm.toInt := BitVec.toInt_signExtend_of_le (by decide)

end Sys2Proof.Machine
end

