-- ==== Sys2Proof/Laws/Exec.lean ====
section
/-! SUPPORT. Everything an instruction can do, and everything a step can do: the inversion lemmas that later proofs cite. -/

namespace Sys2Proof.Machine

/-- The four shapes of a meaning: a register write, a load, a store, a transfer. -/
theorem exec_cases (i : Instr) (s : State) :
    (isTransfer i = false ∧ dataAccess i = none ∧ ∃ r v, registerWritten i = some r ∧ exec i s = .next (s.commit (.writes r v))) ∨
    (isTransfer i = false ∧ ∃ w rs imm rt ext, dataAccess i = some (w, .load, rs, imm) ∧ registerWritten i = some rt ∧
      exec i s = s.finish (s.load w ext rt rs imm)) ∨
    (isTransfer i = false ∧ ∃ w rs imm rt, dataAccess i = some (w, .store, rs, imm) ∧ registerWritten i = none ∧
      exec i s = s.finish (s.store w rt rs imm)) ∨
    (isTransfer i = true ∧ dataAccess i = none ∧ registerWritten i = none ∧
      exec i s = s.finish (s.transfer { branch := takenTarget s i })) := by
  cases i
  case lb | lbu | lh | lhu | lw => exact .inr (.inl ⟨rfl, _, _, _, _, _, rfl, rfl, rfl⟩)
  case sb | sh | sw => exact .inr (.inr (.inl ⟨rfl, _, _, _, _, rfl, rfl, rfl⟩))
  case j => exact .inr (.inr (.inr ⟨rfl, rfl, rfl, rfl⟩))
  case beq rs rt imm =>
    refine .inr (.inr (.inr ⟨rfl, rfl, rfl, ?_⟩))
    by_cases h : s.reg rs = s.reg rt <;> simp [exec, execBeq, takenTarget, wordsEqual, h, Effect.branchesTo, Effect.nothing]
  all_goals exact .inl ⟨rfl, rfl, _, _, rfl, rfl⟩

/-- An instruction completes with the commit of an effect, or raises a fatal condition. -/
theorem exec_outcome (i : Instr) (s : State) : (∃ e, exec i s = .next (s.commit e)) ∨ ∃ c, exec i s = .fault (.fatal c) := by
  have hf : ∀ r : Except Cause Effect, (∃ e, s.finish r = .next (s.commit e)) ∨ ∃ c, s.finish r = .fault (.fatal c) := by
    rintro (c | e)
    · exact .inr ⟨c, rfl⟩
    · exact .inl ⟨e, rfl⟩
  rcases exec_cases i s with ⟨_, _, r, v, _, h⟩ | ⟨_, w, rs, imm, rt, ext, _, _, h⟩ | ⟨_, w, rs, imm, rt, _, _, h⟩ | ⟨_, _, _, h⟩
  · exact .inl ⟨_, h⟩
  all_goals rw [h]; exact hf _

/-- Everything a step can do: halt in a stopped core; take a fatal condition of the fetch or the decoder; commit an instruction's
effect; or take a fatal condition the instruction raised. -/
theorem step_cases (s : State) :
    (∃ f, s.status = .stopped f ∧ step s = .fault (.halted f)) ∨
    (s.status = .running ∧ ∃ c w, s.fetchDecode = .error (c, w) ∧ step s = .next (s.takeFatal c w)) ∨
    (s.status = .running ∧ ∃ w i, s.fetchDecode = .ok (w, i) ∧
      ((∃ e, exec i s = .next (s.commit e) ∧ step s = .next (s.commit e)) ∨
        ∃ c, exec i s = .fault (.fatal c) ∧ step s = .next (s.takeFatal c (some w)))) := by
  unfold step
  cases hs : s.status with
  | stopped f => exact .inl ⟨f, rfl, rfl⟩
  | running =>
    refine .inr ?_
    cases hd : s.fetchDecode with
    | error cw => exact .inl ⟨rfl, cw.1, cw.2, rfl, rfl⟩
    | ok wi =>
      obtain ⟨w, i⟩ := wi
      refine .inr ⟨rfl, w, i, rfl, ?_⟩
      rcases exec_outcome i s with ⟨e, h⟩ | ⟨c, h⟩
      · exact .inl ⟨e, h, by simp only [h, State.catchFatal]⟩
      · exact .inr ⟨c, h, by simp only [h, State.catchFatal]⟩

/-- What the fetch and the decoder find. -/
theorem fetchDecode_cases (s : State) :
    (s.config.memSize < s.pc.toNat + 4 ∧ s.fetchDecode = .error (.outOfBoundsAccess s.pc .word .fetch, none)) ∨
    (s.pc.toNat + 4 ≤ s.config.memSize ∧ ∃ e, decode (wordAt s s.pc.toNat) = .error e ∧
      s.fetchDecode = .error (.unsupportedInstruction, some (wordAt s s.pc.toNat))) ∨
    (∃ i, InstructionAtPc s i ∧ s.fetchDecode = .ok (wordAt s s.pc.toNat, i)) := by
  by_cases h : s.pc.toNat + 4 ≤ s.config.memSize
  · refine .inr ?_
    cases hd : decode (wordAt s s.pc.toNat) with
    | error e => exact .inl ⟨h, e, rfl, by unfold State.fetchDecode; rw [State.fetch_inBounds h]; simp only [hd]⟩
    | ok i => exact .inr ⟨i, ⟨h, hd⟩, State.fetchDecode_at ⟨h, hd⟩⟩
  · refine .inl ⟨by omega, ?_⟩
    unfold State.fetchDecode State.fetch
    rw [State.memRead_outOfBounds .fetch (by simpa [AccessWidth.bytes] using h)]

/-- Everything an instruction that completes has done: a register write, a store in bounds, or a transfer that no policy rejects. -/
theorem exec_next {i : Instr} {s t : State} (h : exec i s = .next t) :
    (∃ r v, registerWritten i = some r ∧ isTransfer i = false ∧ isStore i = false ∧ t = s.commit (.writes r v)) ∨
    (∃ w rs imm rt, dataAccess i = some (w, .store, rs, imm) ∧ registerWritten i = none ∧ isTransfer i = false ∧
      (s.effectiveAddress rs imm).toNat + w.bytes ≤ s.config.memSize ∧
      t = s.commit (.stores (s.effectiveAddress rs imm) w (s.reg rt))) ∨
    (isTransfer i = true ∧ dataAccess i = none ∧ registerWritten i = none ∧
      ¬ (s.inDelaySlot = true ∧ s.config.branchPolicy = .reject) ∧ t = s.advance (takenTarget s i)) := by
  have inj : ∀ u, (Host.Outcome.next u : Host.Outcome State Fault Refusal) = .next t → t = u := fun u hu => by
    injection hu with hu; exact hu.symm
  rcases exec_cases i s with ⟨ht, hd, r, v, hr, hx⟩ | ⟨ht, w, rs, imm, rt, ext, hd, hr, hx⟩ | ⟨ht, w, rs, imm, rt, hd, hr, hx⟩ |
    ⟨ht, hd, hr, hx⟩ <;> rw [hx] at h
  · exact .inl ⟨r, v, hr, ht, by simp [isStore, hd], inj _ h⟩
  · by_cases hb : (s.effectiveAddress rs imm).toNat + w.bytes ≤ s.config.memSize
    · rw [State.load_inBounds _ _ hb] at h; exact .inl ⟨rt, _, hr, ht, by simp [isStore, hd], inj _ h⟩
    · rw [State.load_outOfBounds _ _ (by omega)] at h; nomatch h
  · by_cases hb : (s.effectiveAddress rs imm).toNat + w.bytes ≤ s.config.memSize
    · rw [State.store_inBounds _ hb] at h; exact .inr (.inl ⟨w, rs, imm, rt, hd, hr, ht, hb, inj _ h⟩)
    · rw [State.store_outOfBounds _ (by omega)] at h; nomatch h
  · by_cases hb : s.inDelaySlot = true ∧ s.config.branchPolicy = .reject
    · rw [State.transfer_rejected _ hb.1 hb.2] at h; nomatch h
    · rw [State.transfer_allowed _ hb] at h; exact .inr (.inr ⟨ht, hd, hr, hb, inj _ h⟩)

end Sys2Proof.Machine
end

