-- ==== Sys2Proof/Laws/PerInstr.lean ====
section
/-! SUPPORT. A law of every instruction, one lemma per constructor: the word of an instruction belongs to the row of its own name in
the opcode table, so that no `Instr` is ill-formed. -/

namespace Sys2Proof.Laws.TableRow

/-- The word of an instruction belongs to its row of the opcode table (30_encoding.md R69). -/
def Statement (i : Instr) : Prop := i.wellFormed = true

/-- Belonging to a row is an equation on words. -/
theorem statement_iff (i : Instr) : Statement i ↔ encode i &&& i.mnemonic.row.mask = i.mnemonic.row.pattern := by
  unfold Statement Instr.wellFormed OpcodeRow.admits; exact beq_iff_eq

variable (op fn : BitVec 6) (rs rt rd : BitVec 5) (sa : Shamt) (imm : Imm16)

theorem opRow : encodeI op rs rt imm &&& opMask = op ++ 0#26 := (opMask_iff _ _).mpr (opField_encodeI ..)
theorem regRow : encodeR rs rt rd 0#5 fn &&& regMask = 0#6 ++ 0#15 ++ 0#5 ++ fn :=
  (regMask_iff ..).mpr ⟨opField_encodeR .., shamtField_encodeR .., functField_encodeR ..⟩
theorem shiftRow : encodeR 0#5 rt rd sa fn &&& shiftMask = 0#6 ++ 0#5 ++ 0#15 ++ fn :=
  (shiftMask_iff ..).mpr ⟨opField_encodeR .., rsField_encodeR .., functField_encodeR ..⟩

theorem lui (rt : RegIdx) (imm : Imm16) : Statement (.lui rt imm) := (statement_iff _).mpr ((luiMask_iff ..).mpr ⟨opField_encodeI .., rsField_encodeI ..⟩)
theorem ori (rt rs : RegIdx) (imm : Imm16) : Statement (.ori rt rs imm) := (statement_iff _).mpr (opRow ..)
theorem addiu (rt rs : RegIdx) (imm : Imm16) : Statement (.addiu rt rs imm) := (statement_iff _).mpr (opRow ..)
theorem andi (rt rs : RegIdx) (imm : Imm16) : Statement (.andi rt rs imm) := (statement_iff _).mpr (opRow ..)
theorem xori (rt rs : RegIdx) (imm : Imm16) : Statement (.xori rt rs imm) := (statement_iff _).mpr (opRow ..)
theorem addu (rd rs rt : RegIdx) : Statement (.addu rd rs rt) := (statement_iff _).mpr (regRow ..)
theorem subu (rd rs rt : RegIdx) : Statement (.subu rd rs rt) := (statement_iff _).mpr (regRow ..)
theorem and (rd rs rt : RegIdx) : Statement (.and rd rs rt) := (statement_iff _).mpr (regRow ..)
theorem or (rd rs rt : RegIdx) : Statement (.or rd rs rt) := (statement_iff _).mpr (regRow ..)
theorem xor (rd rs rt : RegIdx) : Statement (.xor rd rs rt) := (statement_iff _).mpr (regRow ..)
theorem nor (rd rs rt : RegIdx) : Statement (.nor rd rs rt) := (statement_iff _).mpr (regRow ..)
theorem slt (rd rs rt : RegIdx) : Statement (.slt rd rs rt) := (statement_iff _).mpr (regRow ..)
theorem sltu (rd rs rt : RegIdx) : Statement (.sltu rd rs rt) := (statement_iff _).mpr (regRow ..)
theorem sll (rd rt : RegIdx) (sa : Shamt) : Statement (.sll rd rt sa) := (statement_iff _).mpr (shiftRow ..)
theorem srl (rd rt : RegIdx) (sa : Shamt) : Statement (.srl rd rt sa) := (statement_iff _).mpr (shiftRow ..)
theorem sra (rd rt : RegIdx) (sa : Shamt) : Statement (.sra rd rt sa) := (statement_iff _).mpr (shiftRow ..)
theorem sllv (rd rt rs : RegIdx) : Statement (.sllv rd rt rs) := (statement_iff _).mpr (regRow ..)
theorem srlv (rd rt rs : RegIdx) : Statement (.srlv rd rt rs) := (statement_iff _).mpr (regRow ..)
theorem srav (rd rt rs : RegIdx) : Statement (.srav rd rt rs) := (statement_iff _).mpr (regRow ..)
theorem sb (rt rs : RegIdx) (imm : Imm16) : Statement (.sb rt rs imm) := (statement_iff _).mpr (opRow ..)
theorem sh (rt rs : RegIdx) (imm : Imm16) : Statement (.sh rt rs imm) := (statement_iff _).mpr (opRow ..)
theorem sw (rt rs : RegIdx) (imm : Imm16) : Statement (.sw rt rs imm) := (statement_iff _).mpr (opRow ..)
theorem lb (rt rs : RegIdx) (imm : Imm16) : Statement (.lb rt rs imm) := (statement_iff _).mpr (opRow ..)
theorem lbu (rt rs : RegIdx) (imm : Imm16) : Statement (.lbu rt rs imm) := (statement_iff _).mpr (opRow ..)
theorem lh (rt rs : RegIdx) (imm : Imm16) : Statement (.lh rt rs imm) := (statement_iff _).mpr (opRow ..)
theorem lhu (rt rs : RegIdx) (imm : Imm16) : Statement (.lhu rt rs imm) := (statement_iff _).mpr (opRow ..)
theorem lw (rt rs : RegIdx) (imm : Imm16) : Statement (.lw rt rs imm) := (statement_iff _).mpr (opRow ..)
theorem j (target : Target26) : Statement (.j target) := (statement_iff _).mpr ((opMask_iff ..).mpr (opField_encodeJ ..))
theorem beq (rs rt : RegIdx) (imm : Imm16) : Statement (.beq rs rt imm) := (statement_iff _).mpr (opRow ..)

end Sys2Proof.Laws.TableRow
end

