-- ==== Sys2Proof/Tests/Slice0.lean ====
section
/-! SUPPORT. Tests by evaluation, and witnesses for the hypotheses of the statements. Every expected value stands in the spec: in
95_test_vectors.md (its tables V1 to V10), in a rule's worked example, or in the table of opcodes; the comment above a group names it.
The start state is the common one of 95_test_vectors.md. -/

namespace Sys2Proof.Tests

open Sys2Proof.Machine

/-! Helpers -/

/-- A state with a configuration, a pc, a delay-slot state and some registers; memory is empty. -/
def machine (c : Config) (pc : Word) (control : Control) (regs : List (RegIdx × Word)) : State :=
  regs.foldl (fun s p => s.writeReg p.1 p.2) { State.reset with config := c, pc := pc, control := control }

/-- Some bytes put into memory. -/
def place (s : State) (a : Nat) (bs : List Byte) : State := { s with mem := s.mem.writeBytes a bs }

/-- The common start state of 95_test_vectors.md, with an instruction word at pc 0. -/
def start (w : Nat) (regs : List (RegIdx × Word)) : State := (machine defaultConfig 0 .normal regs).withFetchWord 32 w

/-- The same with the bytes of table V4 at 0x200, in a byte order. -/
def startV4 (order : ByteOrder) (w : Nat) : State :=
  (place (machine { defaultConfig with byteOrder := order } 0 .normal [(1, 0x200), (2, 0x1F8), (4, 0x201)]) 0x200
    [0x80, 0x7F, 0xFE, 0xFF, 0x01, 0x02, 0x03, 0x04]).withFetchWord 32 w

/-- The start state of table V5, in a byte order. -/
def startV5 (order : ByteOrder) (w : Nat) : State :=
  (machine { defaultConfig with byteOrder := order } 0 .normal [(1, 0x300), (2, 0x11223344)]).withFetchWord 32 w

/-- A J or BEQ, or another word, at 0x40 in the delay slot of a branch to 0x200, under a policy; `x1 = 1`. -/
def inSlot (policy : BranchPolicy) (w : Nat) : State :=
  (machine { defaultConfig with branchPolicy := policy } 0x40 (.delaySlotPending 0x200) [(1, 1)]).withFetchWord 32 w

/-- The register a step leaves, if the core is still running. -/
def regAfter (s : State) (r : RegIdx) : Option Word :=
  match step s with
  | .next t    => if t.status = .running then some (t.reg r) else none
  | .fault _   => none
  | .refused _ => none

/-- The bytes a step leaves, if the core is still running. -/
def bytesAfter (s : State) (a n : Nat) : Option (List Byte) :=
  match step s with
  | .next t    => if t.status = .running then some (t.mem.readBytes a n) else none
  | .fault _   => none
  | .refused _ => none

/-- pc and the delay-slot state a step leaves, if the core is still running. -/
def controlAfter (s : State) : Option (Word × Control) :=
  match step s with
  | .next t    => if t.status = .running then some (t.pc, t.control) else none
  | .fault _   => none
  | .refused _ => none

/-- The record of a step that stops the core and changes nothing else. -/
def stopAfter (s : State) : Option FaultRecord :=
  match step s with
  | .next t =>
    match t.status with
    | .stopped f => if t = { s with status := .stopped f } then some f else none
    | .running   => none
  | .fault _   => none
  | .refused _ => none

/-! Decoding: a word of every constructor, from the tables of 95_test_vectors.md; LHU and SH operands from V4 and V5 -/

theorem test_decode_immediate :
    decodeTableWord 32 0x3C038000 = some (.lui 3 0x8000) ∧ decodeTableWord 32 0x34238000 = some (.ori 3 1 0x8000) ∧
    decodeTableWord 32 0x2423FFFF = some (.addiu 3 1 0xFFFF) ∧ decodeTableWord 32 0x3023FFFF = some (.andi 3 1 0xFFFF) ∧
    decodeTableWord 32 0x38201234 = some (.xori 0 1 0x1234) := by decide

theorem test_decode_register :
    decodeTableWord 32 0x00221821 = some (.addu 3 1 2) ∧ decodeTableWord 32 0x00220023 = some (.subu 0 1 2) ∧
    decodeTableWord 32 0x00221824 = some (.and 3 1 2) ∧ decodeTableWord 32 0x00221825 = some (.or 3 1 2) ∧
    decodeTableWord 32 0x00221826 = some (.xor 3 1 2) ∧ decodeTableWord 32 0x00221827 = some (.nor 3 1 2) ∧
    decodeTableWord 32 0x0022082A = some (.slt 1 1 2) ∧ decodeTableWord 32 0x0022182B = some (.sltu 3 1 2) := by decide

theorem test_decode_shift :
    decodeTableWord 32 0x00021FC0 = some (.sll 3 2 31) ∧ decodeTableWord 32 0x00021902 = some (.srl 3 2 4) ∧
    decodeTableWord 32 0x00021903 = some (.sra 3 2 4) ∧ decodeTableWord 32 0x00221804 = some (.sllv 3 2 1) ∧
    decodeTableWord 32 0x00221806 = some (.srlv 3 2 1) ∧ decodeTableWord 32 0x00221807 = some (.srav 3 2 1) := by decide

theorem test_decode_memory :
    decodeTableWord 32 0xA0220006 = some (.sb 2 1 6) ∧ decodeTableWord 32 0xA422FFFE = some (.sh 2 1 0xFFFE) ∧
    decodeTableWord 32 0xAC220001 = some (.sw 2 1 1) ∧ decodeTableWord 32 0x8083FFFF = some (.lb 3 4 0xFFFF) ∧
    decodeTableWord 32 0x90270006 = some (.lbu 7 1 6) ∧ decodeTableWord 32 0x84240004 = some (.lh 4 1 4) ∧
    decodeTableWord 32 0x94250004 = some (.lhu 5 1 4) ∧ decodeTableWord 32 0x8C430008 = some (.lw 3 2 8) := by decide

theorem test_decode_transfer :
    decodeTableWord 32 0x0BFFFFFF = some (.j 0x3FFFFFF) ∧ decodeTableWord 32 0x10228000 = some (.beq 1 2 0x8000) := by decide

/-- Words of table V8 that are no instruction. -/
def outsideWords : List Word :=
  [0x00000020, 0x00000001, 0x03E00008, 0x0000000C, 0x00200000, 0x00200002, 0x00000061, 0x00221864, 0x3C200000, 0x0C000000] ++
  [0x14000000, 0x20000000, 0x88000000, 0x42000010, 0xFFFFFFFF]

theorem test_outside_words_are_ill_formed : outsideWords.map wordWellFormed = List.replicate 15 false := by decide
theorem test_outside_words_do_not_decode : outsideWords.map (fun w => (decode w).isOk) = List.replicate 15 false := by decide

/-- 30_encoding.md R60: an instruction is 4 bytes; R84 and 20_memory.md R46: their order. -/
theorem test_decode_bytes :
    decodeBytes .little [0xAA, 0xAA, 0x01] = .error .truncated ∧
    decodeBytes .little [0xAA, 0xAA, 0x01, 0x3C, 0x55] = .ok (.lui 1 0xAAAA, [0x55]) ∧
    decodeBytes .big [0x3C, 0x01, 0xAA, 0xAA] = .ok (.lui 1 0xAAAA, []) := by decide

/-! Well-formedness: an ill-formed term for each check (30_encoding.md R66, R69, R79, R80, R83) -/

theorem test_register_operand : regOperand 31 = some 31 ∧ regOperand 32 = none ∧ regOperand (-1) = none := by decide
theorem test_unsigned_operand : unsignedOperand 65535 = some 0xFFFF ∧ unsignedOperand 65536 = none ∧ unsignedOperand (-1) = none := by
  decide
theorem test_signed_operand :
    signedOperand (-32768) = some 0x8000 ∧ signedOperand (-32769) = none ∧ signedOperand 32768 = none := by decide
theorem test_shift_operand : shamtOperand 31 = some 31 ∧ shamtOperand 32 = none ∧ shamtOperand (-1) = none := by decide
theorem test_branch_operand :
    branchOperand 0x40 0x44 = some 0 ∧ branchOperand 0x40 0x40 = some 0xFFFF ∧ branchOperand 0x40 0x46 = none ∧
    branchOperand 0x40 0x20040 = some 0x7FFF ∧ branchOperand 0x40 0x20044 = none ∧ branchOperand 0x40 (-4) = none := by decide
theorem test_jump_operand :
    jumpOperand 0x40 0x100 = some 0x40 ∧ jumpOperand 0x40 0x102 = none ∧ jumpOperand 0x40 0x10000000 = none ∧
    jumpOperand 0x0FFFFFFC 0x10000100 = some 0x40 := by decide
theorem test_source_lines :
    SourceLine.assemble 0 ⟨.sw, [2, 0, 1]⟩ = some (.sw 2 1 0) ∧ SourceLine.wellFormed 0 ⟨.ori, [1, 1, -1]⟩ = false ∧
    SourceLine.wellFormed 0 ⟨.addiu, [1, 1, 40000]⟩ = false ∧ SourceLine.wellFormed 0 ⟨.addu, [1, 32, 2]⟩ = false ∧
    SourceLine.wellFormed 0 ⟨.sll, [1, 2, 32]⟩ = false ∧ SourceLine.wellFormed 0 ⟨.lui, [1]⟩ = false ∧
    SourceLine.wellFormed 0 ⟨.j, [2]⟩ = false ∧ SourceLine.wellFormed 0 ⟨.beq, [0, 0, 0x40000]⟩ = false := by decide
theorem test_register_names :
    registerNamed "$zero" = some 0 ∧ registerNamed "$t8" = some 24 ∧ registerNamed "$s8" = some 30 ∧ registerNamed "$fp" = some 30 ∧
    registerNamed "$ra" = some 31 ∧ registerNamed "$x1" = none := ⟨rfl, rfl, rfl, rfl, rfl, rfl⟩

/-! Immediate ALU: table V1 -/

theorem test_lui : regAfter (start 0x3C03FFFF []) 3 = some 0xFFFF0000 := by decide
theorem test_ori : regAfter (start 0x34238000 [(1, 0x00010001)]) 3 = some 0x00018001 := by decide
theorem test_addiu : regAfter (start 0x24238000 []) 3 = some 0xFFFF8000 := by decide
theorem test_addiu_source_is_destination : regAfter (start 0x24217FFF [(1, 0x00008001)]) 1 = some 0x00010000 := by decide
theorem test_andi : regAfter (start 0x30238000 [(1, 0xFFFFFFFF)]) 3 = some 0x00008000 := by decide
theorem test_xori : regAfter (start 0x3823FFFF [(1, 0xFFFFFFFF)]) 3 = some 0xFFFF0000 := by decide
theorem test_xori_register_zero : regAfter (start 0x38201234 [(1, 5)]) 0 = some 0 := by decide

/-! Register ALU: table V2 -/

theorem test_addu : regAfter (start 0x00221821 [(1, 0xFFFFFFFF), (2, 0xFFFFFFFF)]) 3 = some 0xFFFFFFFE := by decide
theorem test_subu : regAfter (start 0x00221823 [(1, 0), (2, 0x80000000)]) 3 = some 0x80000000 := by decide
theorem test_subu_operand_order : regAfter (start 0x00221823 [(1, 0x80000000), (2, 1)]) 3 = some 0x7FFFFFFF := by decide
theorem test_and : regAfter (start 0x00221824 [(1, 0xFFFFFFFF), (2, 0x80000001)]) 3 = some 0x80000001 := by decide
theorem test_or : regAfter (start 0x00221825 [(1, 0x80000000), (2, 1)]) 3 = some 0x80000001 := by decide
theorem test_xor : regAfter (start 0x00221826 [(1, 0xFFFFFFFF), (2, 0x0F0F0F0F)]) 3 = some 0xF0F0F0F0 := by decide
theorem test_nor : regAfter (start 0x00221827 []) 3 = some 0xFFFFFFFF := by decide
theorem test_slt : regAfter (start 0x0022182A [(1, 0x80000000), (2, 0x7FFFFFFF)]) 3 = some 1 := by decide
theorem test_slt_equal : regAfter (start 0x0022182A [(1, 7), (2, 7)]) 3 = some 0 := by decide
theorem test_sltu : regAfter (start 0x0022182B [(1, 0x80000000), (2, 0x7FFFFFFF)]) 3 = some 0 := by decide
theorem test_sltu_less : regAfter (start 0x0022182B [(1, 0), (2, 0xFFFFFFFF)]) 3 = some 1 := by decide

/-! Shifts: table V3 -/

theorem test_sll : regAfter (start 0x00021FC0 [(2, 3)]) 3 = some 0x80000000 := by decide
theorem test_srl : regAfter (start 0x00021FC2 [(2, 0x80000000)]) 3 = some 1 := by decide
theorem test_sra : regAfter (start 0x00021903 [(2, 0xF0000000)]) 3 = some 0xFF000000 := by decide
theorem test_sllv : regAfter (start 0x00221804 [(1, 0xFFFFFFE4), (2, 1)]) 3 = some 0x10 := by decide
theorem test_sllv_amount_32 : regAfter (start 0x00221804 [(1, 0x20), (2, 1)]) 3 = some 1 := by decide
theorem test_srlv : regAfter (start 0x00421006 [(2, 0x80000004)]) 2 = some 0x08000000 := by decide
theorem test_srav : regAfter (start 0x00221807 [(1, 4), (2, 0x80000000)]) 3 = some 0xF8000000 := by decide

/-! Loads and stores: tables V4 and V5, in both byte orders -/

theorem test_lb : regAfter (startV4 .little 0x8083FFFF) 3 = some 0xFFFFFF80 := by decide
theorem test_lbu : regAfter (startV4 .little 0x90230000) 3 = some 0x80 := by decide
theorem test_lh : regAfter (startV4 .little 0x84230003) 3 = some 0x000001FF ∧
    regAfter (startV4 .big 0x84230003) 3 = some 0xFFFFFF01 := by decide
theorem test_lhu : regAfter (startV4 .little 0x94230000) 3 = some 0x00007F80 ∧
    regAfter (startV4 .big 0x94230000) 3 = some 0x0000807F := by decide
theorem test_lw : regAfter (startV4 .little 0x8C230001) 3 = some 0x01FFFE7F ∧
    regAfter (startV4 .big 0x8C230001) 3 = some 0x7FFEFF01 := by decide
theorem test_sb : bytesAfter (startV5 .big 0xA0220000) 0x2FE 8 = some [0, 0, 0x44, 0, 0, 0, 0, 0] := by decide
theorem test_sh : bytesAfter (startV5 .little 0xA422FFFE) 0x2FE 8 = some [0x44, 0x33, 0, 0, 0, 0, 0, 0] ∧
    bytesAfter (startV5 .big 0xA422FFFE) 0x2FE 8 = some [0x33, 0x44, 0, 0, 0, 0, 0, 0] := by decide
theorem test_sw : bytesAfter (startV5 .little 0xAC220001) 0x2FE 8 = some [0, 0, 0, 0x44, 0x33, 0x22, 0x11, 0] ∧
    bytesAfter (startV5 .big 0xAC220001) 0x2FE 8 = some [0, 0, 0, 0x11, 0x22, 0x33, 0x44, 0] := by decide

/-! Bounds: table V6 -/

theorem test_bounds_load :
    regAfter (start 0x8C230000 [(1, 0xFFC)]) 3 = some 0 ∧
    (stopAfter (start 0x8C230000 [(1, 0xFFD)])).map (·.cause) = some (.outOfBoundsAccess 0xFFD .word .load) ∧
    (stopAfter (start 0x8C230000 [(1, 0xFFFFFFFC)])).map (·.cause) = some (.outOfBoundsAccess 0xFFFFFFFC .word .load) := by decide
theorem test_bounds_store :
    (stopAfter (start 0xA4220000 [(1, 0xFFF), (2, 0xABCD)])).map (·.cause) = some (.outOfBoundsAccess 0xFFF .half .store) ∧
    bytesAfter (start 0xAC220000 [(1, 0xFFC), (2, 0xABCD)]) 0xFFC 4 = some [0xCD, 0xAB, 0, 0] := by decide
theorem test_bounds_fetch :
    (stopAfter (machine defaultConfig 0x1000 .normal [])).map (fun f => (f.cause, f.word)) =
      some (.outOfBoundsAccess 0x1000 .word .fetch, none) ∧
    controlAfter ((machine defaultConfig 0xFFC .normal []).withFetchWord 32 0) = some (0x1000, .normal) := by decide

/-! Control transfer: table V7, and 44_control_transfer.md R160 to R163 -/

theorem test_j : controlAfter ((machine defaultConfig 0x40 .normal []).withFetchWord 32 0x08000040) =
    some (0x44, .delaySlotPending 0x100) := by decide
/-- V7's last rows: the region of a J is that of `pc + 4`, and a branch target wraps. -/
theorem test_targets_by_formula : jumpTarget 0x0FFFFFFC 0x40 = 0x10000100 ∧ branchTarget 0xFFFFFFF8 1 = 0 := by decide
theorem test_beq_taken : controlAfter ((machine defaultConfig 0x40 .normal []).withFetchWord 32 0x10228000) =
    some (0x44, .delaySlotPending 0xFFFE0044) := by decide
theorem test_beq_not_taken : controlAfter ((machine defaultConfig 0x40 .normal [(1, 0x80000000)]).withFetchWord 32 0x10220001) =
    some (0x44, .normal) := by decide
theorem test_delay_slot_ends : controlAfter (inSlot .reject 0) = some (0x200, .normal) := by decide
/-- V7: `BEQ $0,$1,+5` in a delay slot is rejected although it would not be taken. -/
theorem test_reject : stopAfter (inSlot .reject 0x10010005) =
    some { cause := .branchInDelaySlot, pc := 0x40, word := some 0x10010005, pending := some 0x200, message := "" } := by decide
theorem test_policies :
    controlAfter (inSlot .firstWins 0x08000040) = some (0x200, .normal) ∧
    controlAfter (inSlot .lastWriteWins 0x08000040) = some (0x100, .normal) ∧
    controlAfter (inSlot .pipelined 0x08000040) = some (0x200, .delaySlotPending 0x100) ∧
    controlAfter (inSlot .pipelined 0x10010005) = some (0x200, .normal) := by decide
/-- V7: an unsupported word in a delay slot; V9: BNE there is an unsupported word first. -/
theorem test_unsupported : stopAfter (inSlot .reject 0x00000020) =
    some { cause := .unsupportedInstruction, pc := 0x40, word := some 0x00000020, pending := some 0x200, message := "" } ∧
    (stopAfter (inSlot .reject 0x14000000)).map (·.cause) = some .unsupportedInstruction := by decide

/-! The host (60_exceptions.md R175, R185 to R189) -/

/-- The record of a stopped core, for the tests below. -/
def record : FaultRecord := { cause := .branchInDelaySlot, pc := 0x40, word := none, pending := none, message := "" }
/-- A stopped core. -/
def stopped : State := { State.reset with status := .stopped record }

theorem test_host_step :
    (hostStep (start 0x08000004 [])).1 = (.continued, true) ∧ (hostStep stopped).1 = (.halted, false) ∧
    (hostStep (inSlot .reject 0x08000040)).1.2 = true := by decide
theorem test_self_loop : (harnessRun 5 (start 0x08000000 [])).1 = .selfLoop 0 ∧
    (harnessRun 2 State.reset).1 = .stepBudgetExceeded ∧ (harnessRun 2 stopped).1 = .trapped record := by decide
theorem test_inspect : inspectMem (start 0x3C01AAAA []) 0 4 = some [0xAA, 0xAA, 0x01, 0x3C] ∧ inspectMem State.reset 0xFFD 4 = none ∧
    inspectReg (start 0 [(7, 9)]) 7 = 9 ∧ inspectPc State.reset = 0 ∧ inspectDelaySlot (inSlot .reject 0) = (some 0x200, true) := by
  decide
/-- 00_scope.md R8, 70_reset_and_hazards.md R201. -/
theorem test_construct_refuses :
    construct { defaultConfig with memSize := 0x200 } = none ∧ construct { defaultConfig with entry := 2 } = none ∧
    construct { defaultConfig with memSize := 2 ^ 32 + 1 } = none ∧
    construct { defaultConfig with image := [1, 2], imageBase := 0xFFF } = none := by decide

/-! Witnesses: for each statement with hypotheses, states and operands that meet them together, at the ends of their ranges -/

/-- The smallest memory, with an image in its last byte. -/
def smallest : Config := { defaultConfig with memSize := 0x201, image := [0x55], imageBase := 0x200 }
/-- The largest memory, with an image in its last byte. -/
def largest : Config := { defaultConfig with memSize := 2 ^ 32, image := [0x55], imageBase := 0xFFFFFFFF, entry := 0xFFFFFFFC }

theorem witness_ConstructionGivesResetValues :
    configAccepted smallest = true ∧ 0 < smallest.image.length ∧ configAccepted largest = true ∧ configAccepted defaultConfig = true := by
  decide
theorem witness_ConstructionRefusesExactly :
    ∃ s, construct { smallest with entry := 0x200 } = some s ∧ ({ smallest with entry := 0x200 } : Config).memSize < 0x200 + 4 :=
  ⟨_, rfl, by decide⟩
theorem witness_ConstructionMeetsTheInvariant : ∃ s t, construct smallest = some s ∧ construct largest = some t := ⟨_, _, rfl, rfl⟩
theorem witness_StepKeepsTheInvariant :
    (start 0xAC220000 [(1, 0xFFC), (2, 0xABCD)]).Inv ∧ (∃ t, step (start 0xAC220000 [(1, 0xFFC), (2, 0xABCD)]) = .next t) ∧
    (inSlot .reject 0x08000040).Inv ∧ ∃ t, step (inSlot .reject 0x08000040) = .next t :=
  ⟨by decide, ⟨_, rfl⟩, by decide, ⟨_, rfl⟩⟩

theorem witness_RegisterZeroIsHardWired :
    registerWritten (.lw 0 1 0) = some 0 ∧ (∃ t, exec (.lw 0 1 0) (start 0 [(1, 0xFFC)]) = .next t) ∧
    dataAccess (.lw 0 1 0) = some (.word, .load, 1, 0) ∧
    (start 0 [(1, 0xFFD)]).config.memSize < ((start 0 [(1, 0xFFD)]).effectiveAddress 1 0).toNat + AccessWidth.word.bytes :=
  ⟨rfl, ⟨_, rfl⟩, rfl, by decide⟩
theorem witness_RegistersReadAndWritten :
    start 0 [(1, 5), (2, 7), (9, 1)] = { start 0 [(1, 5), (2, 7)] with x := (start 0 [(1, 5), (2, 7), (9, 1)]).x } ∧
    (∀ r ∈ registersRead (.addu 3 1 2), (start 0 [(1, 5), (2, 7), (9, 1)]).reg r = (start 0 [(1, 5), (2, 7)]).reg r) ∧
    (∃ t, exec (.addu 3 1 2) (start 0 [(1, 5), (2, 7)]) = .next t) ∧ ∃ f, exec (.lw 3 1 0xFFFB) (start 0 [(1, 1), (2, 7)]) = .fault f :=
  ⟨by decide, by decide, ⟨_, rfl⟩, ⟨_, rfl⟩⟩

theorem witness_EncodeOfDecode : decode 0x1022FFFF = .ok (.beq 1 2 0xFFFF) := by decide
theorem witness_DecodeIsTheOpcodeTable :
    Mnemonic.beq.row.admits 0x1022FFFF = true ∧ ∀ m ∈ Mnemonic.all, m.row.admits 0xFFFFFFFF = false := by decide
theorem witness_WordsOutsideTheTableStopTheCore :
    (0xFFFFFFFF : Word).extractLsb' 26 6 ∉ [0x00#6, 0x02#6, 0x04#6, 0x09#6, 0x0C#6, 0x0D#6, 0x0E#6, 0x0F#6] ++
      [0x20#6, 0x21#6, 0x23#6, 0x24#6, 0x25#6, 0x28#6, 0x29#6, 0x2B#6] ∧
    ((0x03E00008 : Word).extractLsb' 26 6 = 0#6 ∧
      (0x03E00008 : Word).extractLsb' 0 6 ∉ [0x00#6, 0x02#6, 0x03#6, 0x04#6, 0x06#6, 0x07#6] ++
        [0x21#6, 0x23#6, 0x24#6, 0x25#6, 0x26#6, 0x27#6, 0x2A#6, 0x2B#6]) ∧
    ((0x00000061 : Word).extractLsb' 26 6 = 0#6 ∧ (0x00000061 : Word).extractLsb' 0 6 = 0x21#6 ∧
      (0x00000061 : Word).extractLsb' 6 5 ≠ 0#5) ∧
    ((0x00200002 : Word).extractLsb' 26 6 = 0#6 ∧ (0x00200002 : Word).extractLsb' 0 6 = 0x02#6 ∧
      (0x00200002 : Word).extractLsb' 21 5 ≠ 0#5) ∧
    ((0x3C200000 : Word).extractLsb' 26 6 = 0x0F#6 ∧ (0x3C200000 : Word).extractLsb' 21 5 ≠ 0#5) ∧
    ((machine defaultConfig 0xFFC .normal []).withFetchWord 32 0x20).status = .running ∧ 0xFFC + 4 ≤ defaultConfig.memSize ∧
    ∃ e, decode (wordAt ((machine defaultConfig 0xFFC .normal []).withFetchWord 32 0x20) 0xFFC) = .error e :=
  ⟨by decide, by decide, by decide, by decide, by decide, by decide, by decide, ⟨.unsupportedFunct 0x20#6, by decide⟩⟩

theorem witness_ZeroWordIsNop : State.reset.control = .normal ∧ (inSlot .reject 0).control = .delaySlotPending 0x200 := by decide
theorem witness_AssembledOperandsMeanTheSource :
    branchOperand 0x20000 ((0x4 : Word).toNat : Int) = some 0x8000 ∧ branchOperand 0x40 ((0x20040 : Word).toNat : Int) = some 0x7FFF ∧
    jumpOperand 0x0FFFFFFC ((0x1FFFFFFC : Word).toNat : Int) = some 0x3FFFFFF ∧ jumpOperand 0x40 ((0 : Word).toNat : Int) = some 0 := by
  decide
theorem witness_OperandsAreWrittenInThisOrder :
    jumpOperand 0x0FFFFFFC 0x1FFFFFFC = some 0x3FFFFFF ∧ branchOperand 0x20000 4 = some 0x8000 := by decide
theorem witness_PseudoInstructionsDoWhatTheySay :
    State.reset.control = .normal ∧ State.reset.reg 31 = 0 ∧ (start 0 [(31, 0x80000000)]).control = .normal ∧
    (start 0 [(31, 0x80000000)]).reg 31 ≠ 0 ∧ loadImmediate 31 0xFFFF8000 = [.addiu 31 0 0x8000] ∧
    loadImmediate 31 0x8000 = [.ori 31 0 0x8000] ∧ loadImmediate 31 0x10000 = [.lui 31 1] := by decide

theorem witness_StoresWriteTheirBytes :
    (start 0 [(1, 0xFFF)]).mem.wf ∧
    ((start 0 [(1, 0xFFF)]).effectiveAddress 1 0).toNat + 1 ≤ (start 0 [(1, 0xFFF)]).config.memSize ∧
    ((start 0 [(1, 0xFFF)]).effectiveAddress 1 0xFFFF).toNat + 2 ≤ (start 0 [(1, 0xFFF)]).config.memSize ∧
    ((start 0 [(1, 0xFFF)]).effectiveAddress 1 0xFFFD).toNat + 4 ≤ (start 0 [(1, 0xFFF)]).config.memSize ∧
    (start 0 [(1, 0xFFF)]).config.memSize < ((start 0 [(1, 0xFFF)]).effectiveAddress 1 1).toNat + 1 ∧
    (start 0 [(1, 0xFFF)]).config.memSize < ((start 0 [(1, 0xFFF)]).effectiveAddress 1 0).toNat + 2 ∧
    (start 0 [(1, 0xFFF)]).config.memSize < ((start 0 [(1, 0xFFF)]).effectiveAddress 1 0xFFFE).toNat + 4 := by decide
theorem witness_LbAndLbuLoadOneByte :
    ((start 0 [(1, 0xFFF)]).effectiveAddress 1 0).toNat < (start 0 [(1, 0xFFF)]).config.memSize ∧
    (start 0 [(1, 0xFFF)]).config.memSize ≤ ((start 0 [(1, 0xFFF)]).effectiveAddress 1 1).toNat := by decide
theorem witness_LhAndLhuLoadTwoBytes :
    ((start 0 [(1, 0xFFF)]).effectiveAddress 1 0xFFFF).toNat + 2 ≤ (start 0 [(1, 0xFFF)]).config.memSize ∧
    (start 0 [(1, 0xFFF)]).config.memSize < ((start 0 [(1, 0xFFF)]).effectiveAddress 1 0).toNat + 2 := by decide
theorem witness_LwLoadsFourBytes :
    ((start 0 [(1, 0xFFF)]).effectiveAddress 1 0xFFFD).toNat + 4 ≤ (start 0 [(1, 0xFFF)]).config.memSize ∧
    (start 0 [(1, 0xFFF)]).config.memSize < ((start 0 [(1, 0xFFF)]).effectiveAddress 1 0xFFFE).toNat + 4 := by decide
theorem witness_NoLoadDelay :
    (31 : RegIdx) ≠ 0 ∧ ∃ t, exec (.lw 31 1 0xFFFD) (start 0 [(1, 0xFFF)]) = .next t := ⟨by decide, _, rfl⟩
theorem witness_StoreThenLoadRoundTrip :
    (start 0 [(1, 0xFFF)]).mem.wf ∧ (31 : RegIdx) ≠ 0 ∧ (∃ t, exec (.sw 2 1 0xFFFD) (start 0 [(1, 0xFFF)]) = .next t) ∧
    (∃ t, exec (.sh 2 1 0xFFFF) (start 0 [(1, 0xFFF)]) = .next t) ∧ ∃ t, exec (.sb 2 1 0) (start 0 [(1, 0xFFF)]) = .next t :=
  ⟨by decide, by decide, ⟨_, rfl⟩, ⟨_, rfl⟩, ⟨_, rfl⟩⟩
theorem witness_ExtensionPairing :
    (∃ t u, exec (.lb 3 1 0) (startV4 .little 0) = .next t ∧ exec (.lbu 3 1 0) (startV4 .little 0) = .next u) ∧
    (∃ t u, exec (.lh 3 1 2) (startV4 .big 0) = .next t ∧ exec (.lhu 3 1 2) (startV4 .big 0) = .next u) ∧
    ((startV4 .little 0).mem.read ((startV4 .little 0).effectiveAddress 1 0).toNat).msb = true ∧
    ((startV4 .little 0).mem.read ((startV4 .little 0).effectiveAddress 1 1).toNat).msb = false ∧
    (halfAt (startV4 .big 0) ((startV4 .big 0).effectiveAddress 1 2).toNat).msb = true ∧
    (halfAt (startV4 .big 0) ((startV4 .big 0).effectiveAddress 1 4).toNat).msb = false :=
  ⟨⟨_, _, rfl, rfl⟩, ⟨_, _, rfl, rfl⟩, by decide, by decide, by decide, by decide⟩
/-- The memory of 43_load_store.md R143, in the smallest core. -/
def misaligned : State := place (machine smallest 0 .normal [(1, 0x100)]) 0x101 [0xAB, 0x34, 0x12, 0xAA]
theorem witness_MisalignedLoads :
    misaligned.config.byteOrder = .little ∧ 0x105 ≤ misaligned.config.memSize ∧ misaligned.reg 1 = 0x100 ∧
    misaligned.mem.read 0x101 = 0xAB ∧ misaligned.mem.read 0x102 = 0x34 ∧ misaligned.mem.read 0x103 = 0x12 ∧
    misaligned.mem.read 0x104 = 0xAA := by decide

theorem witness_MemReadSumsTheBytes :
    (0xFFC : Word).toNat + AccessWidth.word.bytes ≤ State.reset.config.memSize ∧ (startV4 .little 0).config.byteOrder = .little ∧
    (0xFFC : Word).toNat + AccessWidth.word.bytes ≤ (startV4 .big 0).config.memSize ∧ (startV4 .big 0).config.byteOrder = .big ∧
    State.reset.config.memSize < (0xFFD : Word).toNat + AccessWidth.word.bytes := by
  decide
theorem witness_MemWritePlacesTheBytes : (startV4 .big 0).mem.wf ∧ 3 < AccessWidth.word.bytes := by decide
theorem witness_BoundsAreChecked :
    (start 0xA4220000 [(1, 0xFFF)]).status = .running ∧ InstructionAtPc (start 0xA4220000 [(1, 0xFFF)]) (.sh 2 1 0) ∧
    dataAccess (.sh 2 1 0) = some (.half, .store, 1, 0) ∧
    (start 0xA4220000 [(1, 0xFFF)]).config.memSize < ((start 0xA4220000 [(1, 0xFFF)]).effectiveAddress 1 0).toNat + 2 ∧
    (start 0xA4220000 [(1, 0xFFE)]).status = .running ∧ InstructionAtPc (start 0xA4220000 [(1, 0xFFE)]) (.sh 2 1 0) ∧
    ((start 0xA4220000 [(1, 0xFFE)]).effectiveAddress 1 0).toNat + 2 ≤ (start 0xA4220000 [(1, 0xFFE)]).config.memSize :=
  ⟨rfl, ⟨by decide, by decide⟩, rfl, by decide, rfl, ⟨by decide, by decide⟩, by decide⟩
theorem witness_MixedWidthAccess :
    (startV5 .little 0).mem.wf ∧ configAccepted (startV5 .little 0).config = true ∧
    (0xFFC : Word).toNat + 4 ≤ (startV5 .little 0).config.memSize ∧ (startV5 .little 0).config.byteOrder = .little ∧
    (startV5 .big 0).mem.wf ∧ configAccepted (startV5 .big 0).config = true ∧
    (0xFFC : Word).toNat + 4 ≤ (startV5 .big 0).config.memSize ∧ (startV5 .big 0).config.byteOrder = .big := by decide
theorem witness_CanonicalMemoryIsDeterminedByItsReads :
    Memory.wf [(0x200, 0x80), (0x201, 0x7F)] ∧ ∀ a, Memory.read [(0x200, 0x80), (0x201, 0x7F)] a =
      Memory.read (Memory.write [(0x201, 0x7F)] 0x200 0x80) a := ⟨by decide, fun _ => rfl⟩
theorem witness_OnlyStoresWriteMemory :
    (∃ t, exec (.lw 3 1 0) (startV4 .big 0) = .next t) ∧ isStore (.lw 3 1 0) = false ∧ (startV4 .big 0).mem.wf ∧
    (∃ t, exec (.sw 3 1 1) (startV4 .big 0) = .next t) ∧ dataAccess (.sw 3 1 1) = some (.word, .store, 1, 1) :=
  ⟨⟨_, rfl⟩, rfl, by decide, ⟨_, rfl⟩, rfl⟩
theorem witness_FetchSeesEveryStore :
    State.reset.pc.toNat + 4 ≤ State.reset.config.memSize ∧ (machine defaultConfig 0xFF8 .normal [(1, 0xFFC)]).mem.wf ∧
    ∃ t, exec (.sw 2 1 0) (machine defaultConfig 0xFF8 .normal [(1, 0xFFC)]) = .next t ∧
      (machine defaultConfig 0xFF8 .normal [(1, 0xFFC)]).effectiveAddress 1 0 = t.pc :=
  ⟨by decide, by decide, _, rfl, by decide⟩

theorem witness_JumpSetsThePendingTarget :
    State.reset.control = .normal ∧ (inSlot .reject 0).inDelaySlot = true ∧ (inSlot .reject 0).config.branchPolicy = .reject ∧
    (inSlot .pipelined 0).inDelaySlot = true ∧ (inSlot .pipelined 0).config.branchPolicy ≠ .reject := by decide
theorem witness_BeqBranchesWhenEqual :
    State.reset.control = .normal ∧ State.reset.reg 1 = State.reset.reg 2 ∧ (start 0 [(1, 0x80000000)]).control = .normal ∧
    (start 0 [(1, 0x80000000)]).reg 1 ≠ (start 0 [(1, 0x80000000)]).reg 2 ∧ (inSlot .firstWins 0).inDelaySlot = true ∧
    (inSlot .firstWins 0).config.branchPolicy ≠ .reject := by decide
theorem witness_TargetsAreAlignedAndUnchecked :
    State.reset.pc.toNat % 4 = 0 ∧ takenTarget State.reset (.beq 0 0 0x8000) = some 0xFFFE0004 ∧ State.reset.control = .normal ∧
    (machine defaultConfig 0xFFFE0004 .normal []).status = .running ∧
    (machine defaultConfig 0xFFFE0004 .normal []).config.memSize < 0xFFFE0004 + 4 := by decide
theorem witness_RejectedBranchInADelaySlot :
    (inSlot .reject 0x10010005).status = .running ∧ (inSlot .reject 0x10010005).control = .delaySlotPending 0x200 ∧
    (inSlot .reject 0x10010005).config.branchPolicy = .reject ∧ InstructionAtPc (inSlot .reject 0x10010005) (.beq 0 1 5) ∧
    takenTarget (inSlot .reject 0x10010005) (.beq 0 1 5) = none ∧ isTransfer (.beq 0 1 5) = true :=
  ⟨rfl, rfl, rfl, ⟨by decide, by decide⟩, by decide, rfl⟩
theorem witness_AllowedBranchInADelaySlot :
    (∀ p ∈ [BranchPolicy.firstWins, .lastWriteWins, .pipelined],
      (inSlot p 0).control = .delaySlotPending 0x200 ∧ (inSlot p 0).config.branchPolicy = p ∧ p ≠ .reject ∧
      takenTarget (inSlot p 0) (.j 0x40) = some 0x100 ∧ takenTarget (inSlot p 0) (.beq 0 1 5) = none) ∧
    isTransfer (.j 0x40) = true ∧ isTransfer (.beq 0 1 5) = true := by decide
theorem witness_CommitIsTheStateMachine :
    Effect.nothing.register = none ∧ (Effect.writes 3 7).register = some (3, 7) ∧ Effect.nothing.store = none ∧
    (Effect.stores 0x100 .word 7).store = some (0x100, .word, 7) ∧ State.reset.control = .normal ∧
    (inSlot .pipelined 0).control = .delaySlotPending 0x200 ∧ Effect.nothing.branch = none ∧
    (Effect.branchesTo 0x100).branch = some 0x100 ∧ (inSlot .firstWins 0).config.branchPolicy = .firstWins ∧
    (inSlot .lastWriteWins 0).config.branchPolicy = .lastWriteWins ∧ (inSlot .pipelined 0).config.branchPolicy = .pipelined := by decide
theorem witness_DelaySlotLaw :
    (start 0x08000004 []).status = .running ∧ (start 0x08000004 []).control = .normal ∧
    InstructionAtPc (start 0x08000004 []) (.j 4) ∧ takenTarget (start 0x08000004 []) (.j 4) = some 0x10 ∧
    InstructionAtPc { start 0x08000004 [] with pc := 4, control := .delaySlotPending 0x10 } nop ∧ isTransfer nop = false ∧
    ∃ v, step { start 0x08000004 [] with pc := 4, control := .delaySlotPending 0x10 } = .next v ∧ v.status = .running :=
  ⟨rfl, rfl, ⟨by decide, by decide⟩, by decide, ⟨by decide, by decide⟩, rfl, _, rfl, rfl⟩
/-- V7's last sequence: a BEQ that is not taken, then a J. -/
def notTaken : State := place (start 0x10010005 [(1, 1)]) 4 [0x20, 0x00, 0x00, 0x08]
theorem witness_NotTakenBeqHasNoDelaySlot :
    notTaken.status = .running ∧ notTaken.control = .normal ∧ InstructionAtPc notTaken (.beq 0 1 5) ∧ notTaken.reg 0 ≠ notTaken.reg 1 ∧
    InstructionAtPc { notTaken with pc := 4 } (.j 0x20) ∧ isTransfer (.j 0x20) = true :=
  ⟨rfl, rfl, ⟨by decide, by decide⟩, by decide, ⟨by decide, by decide⟩, rfl⟩
theorem witness_OnlyTransfersSetAPendingTarget :
    (∃ t, exec (.lui 1 0xFFFF) (inSlot .pipelined 0) = .next t) ∧ isTransfer (.lui 1 0xFFFF) = false := ⟨⟨_, rfl⟩, rfl⟩
/-- A self-loop at 0 with a word in its delay slot. -/
def loop (slot : List Byte) : State := place (start 0x08000000 []) 4 slot
/-- SW $1,8($0) in the delay slot, storing just above the loop. -/
theorem witness_SelfLoopRunsForever :
    (loop [0x08, 0x00, 0x01, 0xAC]).mem.wf ∧ (loop [0x08, 0x00, 0x01, 0xAC]).status = .running ∧
    (loop [0x08, 0x00, 0x01, 0xAC]).control = .normal ∧ InstructionAtPc (loop [0x08, 0x00, 0x01, 0xAC]) (.j 0) ∧
    loopsTo 0 (.j 0) = true ∧ (0 + 4 : Word).toNat + 4 ≤ (loop [0x08, 0x00, 0x01, 0xAC]).config.memSize ∧
    decode (wordAt (loop [0x08, 0x00, 0x01, 0xAC]) (0 + 4 : Word).toNat) = .ok (.sw 1 0 8) ∧ isTransfer (.sw 1 0 8) = false ∧
    (∀ w k rs imm, dataAccess (.sw 1 0 8) = some (w, k, rs, imm) →
      (∀ t : State, t.config = (loop [0x08, 0x00, 0x01, 0xAC]).config →
        (∀ q, registerWritten (.sw 1 0 8) ≠ some q → t.reg q = (loop [0x08, 0x00, 0x01, 0xAC]).reg q) →
        (t.effectiveAddress rs imm).toNat + w.bytes ≤ (loop [0x08, 0x00, 0x01, 0xAC]).config.memSize) ∧
      (k = .store → ∀ a ∈ [(0 : Word).toNat, (0 + 4 : Word).toNat],
        ((loop [0x08, 0x00, 0x01, 0xAC]).effectiveAddress rs imm).toNat + w.bytes ≤ a ∨
          a + 4 ≤ ((loop [0x08, 0x00, 0x01, 0xAC]).effectiveAddress rs imm).toNat)) := by
  refine ⟨by decide, rfl, rfl, ⟨by decide, by decide⟩, by decide, by decide, by decide, rfl, ?_⟩
  rintro w k rs imm h
  cases h
  refine ⟨fun t _ _ => ?_, by decide⟩
  have : t.reg 0 = 0 := if_pos rfl
  unfold State.effectiveAddress
  rw [this]
  decide
/-- LW $1,0xFFC($0) in the delay slot, and no access at all. -/
theorem witness_SelfLoopRunsForever_load :
    decode (wordAt (loop [0xFC, 0x0F, 0x01, 0x8C]) (0 + 4 : Word).toNat) = .ok (.lw 1 0 0xFFC) ∧
    (∀ t : State, (t.effectiveAddress 0 0xFFC).toNat + 4 ≤ (loop [0xFC, 0x0F, 0x01, 0x8C]).config.memSize) ∧
    isStore (.lw 1 0 0xFFC) = false ∧ decode (wordAt (loop []) (0 + 4 : Word).toNat) = .ok nop ∧ dataAccess nop = none := by
  refine ⟨by decide, fun t => ?_, rfl, by decide, rfl⟩
  have : t.reg 0 = 0 := if_pos rfl
  unfold State.effectiveAddress
  rw [this]
  decide

theorem witness_StepRunsTheDecodedInstruction :
    (start 0x8C230000 [(1, 0xFFC)]).status = .running ∧ InstructionAtPc (start 0x8C230000 [(1, 0xFFC)]) (.lw 3 1 0) ∧
    (∃ t, exec (.lw 3 1 0) (start 0x8C230000 [(1, 0xFFC)]) = .next t) ∧
    InstructionAtPc (start 0x8C230000 [(1, 0xFFD)]) (.lw 3 1 0) ∧
    ∃ c, exec (.lw 3 1 0) (start 0x8C230000 [(1, 0xFFD)]) = .fault (.fatal c) :=
  ⟨rfl, ⟨by decide, by decide⟩, ⟨_, rfl⟩, ⟨by decide, by decide⟩, ⟨_, rfl⟩⟩
theorem witness_FatalConditionsInStepOrder :
    (machine defaultConfig 0x1000 .normal []).status = .running ∧
    (machine defaultConfig 0x1000 .normal []).config.memSize < 0x1000 + 4 ∧
    (inSlot .reject 0x14000000).status = .running ∧
    (inSlot .reject 0x14000000).pc.toNat + 4 ≤ (inSlot .reject 0x14000000).config.memSize ∧
    (decode (wordAt (inSlot .reject 0x14000000) (inSlot .reject 0x14000000).pc.toNat) = .error (.unsupportedOpcode 0x05#6)) ∧
    InstructionAtPc (inSlot .reject 0x08000040) (.j 0x40) ∧ (inSlot .reject 0x08000040).inDelaySlot = true ∧
    InstructionAtPc (inSlot .reject 0x8C03FFFC) (.lw 3 0 0xFFFC) ∧ dataAccess (.lw 3 0 0xFFFC) = some (.word, .load, 0, 0xFFFC) ∧
    (inSlot .reject 0x8C03FFFC).config.memSize < ((inSlot .reject 0x8C03FFFC).effectiveAddress 0 0xFFFC).toNat + 4 ∧
    InstructionAtPc (inSlot .reject 0) nop ∧ isTransfer nop = false ∧ dataAccess nop = none :=
  ⟨rfl, by decide, rfl, by decide, by decide, ⟨by decide, by decide⟩, rfl, ⟨by decide, by decide⟩, rfl, by decide,
    ⟨by decide, by decide⟩, rfl, rfl⟩
theorem witness_FatalConditionsArePrecise :
    (inSlot .reject 0x08000040).status = .running ∧
    ∃ t f, step (inSlot .reject 0x08000040) = .next t ∧ t.status = .stopped f := ⟨rfl, _, _, rfl, rfl⟩
theorem witness_AStoppedCoreStaysStopped : stopped.status = .stopped record := rfl
theorem witness_HarnessRunEnds :
    (∃ t, harnessRun 1 stopped = (.trapped record, t)) ∧ (∃ t, harnessRun 0 (start 0x08000000 []) = (.selfLoop 0, t)) ∧
    ∃ t, harnessRun 0 State.reset = (.stepBudgetExceeded, t) := ⟨⟨_, rfl⟩, ⟨_, rfl⟩, ⟨_, rfl⟩⟩
theorem witness_InspectionReadsWhatIsHeld : ∃ bs, inspectMem (start 0x3C01AAAA []) 0xFFC 4 = some bs := ⟨_, rfl⟩
theorem witness_ConfigurationIsFixed : ∃ t, step State.reset = .next t := ⟨_, rfl⟩

end Sys2Proof.Tests
end

section
/-! The statements of 10_state.md: the reset values, what every step keeps, register 0, and which registers an instruction
reads and writes. -/

namespace Sys2Proof.Machine

/-! Alignment of `pc` and of branch targets (44_control_transfer.md R153) -/

theorem toNat_add_four_aligned {p : Word} (h : p.toNat % 4 = 0) : (p + 4).toNat % 4 = 0 := by
  have h4 : (4 : Word).toNat = 4 := rfl
  rw [BitVec.toNat_add, h4]; omega

/-- The target of a J ends in two zero bits, whatever `pc` is. -/
theorem jumpTarget_aligned (pc : Word) (target : Target26) : (jumpTarget pc target).toNat % 4 = 0 := by
  have h : (jumpTarget pc target).toNat = ((pc + 4).extractLsb' 28 4 ++ target).toNat * 2 ^ 2 + (0#2).toNat :=
    toNat_append_mul _ _
  rw [h, BitVec.toNat_ofNat]; omega

theorem branchTarget_aligned {pc : Word} (h : pc.toNat % 4 = 0) (imm : Imm16) : (branchTarget pc imm).toNat % 4 = 0 := by
  have hp := toNat_add_four_aligned h
  have ho : (branchOffset imm).toNat % 4 = 0 := by
    rw [branchOffset, BitVec.toNat_shiftLeft, Nat.shiftLeft_eq]; omega
  rw [branchTarget, BitVec.toNat_add]; omega

/-- The target of a taken branch is a multiple of 4 when `pc` is. -/
theorem takenTarget_aligned {s : State} (h : s.pc.toNat % 4 = 0) {i : Instr} {t : Word} (ht : takenTarget s i = some t) :
    t.toNat % 4 = 0 := by
  cases i
  case j target => cases ht; exact jumpTarget_aligned s.pc target
  case beq rs rt imm =>
    rw [takenTarget] at ht
    split at ht
    · cases ht; exact branchTarget_aligned h imm
    · cases ht
  all_goals cases ht

@[simp] theorem Control.aligned_normal : Control.normal.aligned = true := rfl
@[simp] theorem Control.aligned_delaySlotPending (t : Word) :
    (Control.delaySlotPending t).aligned = true ↔ t.toNat % 4 = 0 := beq_iff_eq

/-- An advance keeps `pc` and the pending target aligned when the target it is given is. -/
theorem State.advance_aligned {s : State} (hpc : s.pc.toNat % 4 = 0) (hct : s.control.aligned = true) {b : Option Word}
    (hb : ∀ t, b = some t → t.toNat % 4 = 0) :
    (s.advance b).pc.toNat % 4 = 0 ∧ (s.advance b).control.aligned = true := by
  have hnext := toNat_add_four_aligned hpc
  cases hc : s.control with
  | normal =>
    cases b with
    | none => rw [State.advance_normal_none hc]; exact ⟨hnext, hct⟩
    | some t => rw [State.advance_normal_some hc]; exact ⟨hnext, by simpa using hb t rfl⟩
  | delaySlotPending p =>
    have hp : p.toNat % 4 = 0 := by simpa [hc] using hct
    cases b with
    | none => rw [State.advance_pending_none hc]; exact ⟨hp, rfl⟩
    | some t =>
      have ht := hb t rfl
      rw [State.advance_pending_some hc]
      unfold State.delaySlotBranch
      cases s.config.branchPolicy with
      | reject => exact ⟨hpc, hct⟩
      | firstWins => exact ⟨hp, rfl⟩
      | lastWriteWins => exact ⟨ht, rfl⟩
      | pipelined => exact ⟨hp, by simpa using ht⟩

/-! Every operation of a step keeps the invariant -/

theorem State.recordMatches_of_running {s : State} (h : s.status = .running) : s.recordMatches = true := by
  simp [State.recordMatches, h]

/-- A fatal condition is recorded with the `pc` and the pending target of the state it stops in. -/
theorem State.takeFatal_keeps_inv {s : State} (h : s.Inv) (c : Cause) (w : Option Word) : (s.takeFatal c w).Inv := by
  obtain ⟨hcf, hx, hpc, hct, hwf, hmem, -⟩ := h
  exact ⟨hcf, hx, hpc, hct, hwf, hmem, by simp [State.recordMatches, State.pendingTarget]⟩

theorem State.writeReg_keeps_inv {s : State} (h : s.Inv) (hs : s.status = .running) (r : RegIdx) (v : Word) :
    (s.writeReg r v).Inv := by
  obtain ⟨hcf, hx, hpc, hct, hwf, hmem, -⟩ := h
  exact ⟨by simpa, by simpa, by simpa, by simpa, by simpa, by simpa using hmem,
    State.recordMatches_of_running (by simpa)⟩

/-- A store in bounds lists provisioned addresses only. -/
theorem State.storeBytes_keeps_inv {s : State} (h : s.Inv) (hs : s.status = .running) {a : Word} {w : AccessWidth}
    (hb : a.toNat + w.bytes ≤ s.config.memSize) (v : Word) : (s.storeBytes a w v).Inv := by
  obtain ⟨hcf, hx, hpc, hct, hwf, hmem, -⟩ := h
  refine ⟨hcf, hx, hpc, hct, Memory.wf_writeBytes hwf _ _, fun c hc => ?_, State.recordMatches_of_running hs⟩
  rcases Memory.mem_writeBytes hc with hc | ⟨-, hc⟩
  · exact hmem c hc
  · rw [length_bytesOf] at hc
    exact Nat.lt_of_lt_of_le hc hb

theorem State.advance_keeps_inv {s : State} (h : s.Inv) (hs : s.status = .running) {b : Option Word}
    (hb : ∀ t, b = some t → t.toNat % 4 = 0) : (s.advance b).Inv := by
  obtain ⟨hcf, hx, hpc, hct, hwf, hmem, -⟩ := h
  obtain ⟨hpc', hct'⟩ := State.advance_aligned hpc hct hb
  exact ⟨by simpa, by simpa, hpc', hct', by simpa, by simpa using hmem, State.recordMatches_of_running (by simpa)⟩

/-- An instruction that completes in a running core keeps the invariant: its register write or its store does, and so does the
advance after it. -/
theorem exec_keeps_inv {i : Instr} {s t : State} (h : s.Inv) (hs : s.status = .running) (he : exec i s = .next t) : t.Inv := by
  rcases exec_next he with ⟨r, v, -, -, -, rfl⟩ | ⟨w, rs, imm, rt, -, -, -, hb, rfl⟩ | ⟨-, -, -, -, rfl⟩
  · rw [State.commit_writes]
    exact State.advance_keeps_inv (State.writeReg_keeps_inv h hs r v) (by simpa) nofun
  · rw [State.commit_stores]
    exact State.advance_keeps_inv (State.storeBytes_keeps_inv h hs hb _) hs nofun
  · have ⟨_, _, hpc, _⟩ := h
    exact State.advance_keeps_inv h hs fun t ht => takenTarget_aligned hpc ht

/-- What a step with a next state has done: an instruction of a running core completed, or a fatal condition was recorded. -/
theorem step_next {s t : State} (h : step s = .next t) :
    (s.status = .running ∧ ∃ i e, exec i s = .next t ∧ t = s.commit e) ∨ ∃ c w, t = s.takeFatal c w := by
  rcases step_cases s with ⟨f, -, hx⟩ | ⟨-, c, w, -, hx⟩ | ⟨hs, w, i, -, ⟨e, he, hx⟩ | ⟨c, -, hx⟩⟩ <;>
    rw [hx] at h <;> cases h
  · exact .inr ⟨c, w, rfl⟩
  · exact .inl ⟨hs, i, e, he, rfl⟩
  · exact .inr ⟨c, some w, rfl⟩

/-- Settles O6: a completed instruction and a recorded fatal condition both keep the invariant. -/
theorem stepKeepsTheInvariant : Obligations.StepKeepsTheInvariant := by
  intro s t hinv h
  rcases step_next h with ⟨hs, i, e, he, -⟩ | ⟨c, w, rfl⟩
  · exact exec_keeps_inv hinv hs he
  · exact State.takeFatal_keeps_inv hinv c w

/-- Settles O60: neither a commit nor a recorded fatal condition touches the configuration. -/
theorem configurationIsFixed : Obligations.ConfigurationIsFixed := by
  intro s t h
  rcases step_next h with ⟨-, i, e, -, rfl⟩ | ⟨c, w, rfl⟩
  · exact State.commit_config s e
  · exact State.takeFatal_config s c w

/-! Register 0 (10_state.md R21) -/

/-- An instruction that completes with destination 0 drops its register write and only advances. -/
theorem exec_next_destination_zero {i : Instr} {s t : State} (hw : registerWritten i = some 0) (h : exec i s = .next t) :
    SameRegisters s t ∧ SameMemory s t ∧ AdvancesPast s t := by
  rcases exec_next h with ⟨r, v, hr, -, -, rfl⟩ | ⟨w, rs, imm, rt, -, hr, -⟩ | ⟨-, -, hr, -⟩ <;>
    rw [hw] at hr <;> cases hr
  obtain ⟨hreg, hmem, -, hadv⟩ := State.writesRegister s 0 v
  exact ⟨fun q => by simpa using hreg q, hmem, hadv⟩

/-- A load out of bounds raises OutOfBoundsAccess, whatever its destination. -/
theorem exec_load_outOfBounds {i : Instr} {s : State} {w : AccessWidth} {rs : RegIdx} {imm : Imm16}
    (hd : dataAccess i = some (w, .load, rs, imm))
    (hb : s.config.memSize < (s.effectiveAddress rs imm).toNat + w.bytes) :
    exec i s = .fault (.fatal (.outOfBoundsAccess (s.effectiveAddress rs imm) w .load)) := by
  rcases exec_cases i s with ⟨-, h, -⟩ | ⟨-, _, _, _, rt, ext, h, -, hx⟩ | ⟨-, _, _, _, _, h, -⟩ | ⟨-, h, -⟩ <;>
    rw [hd] at h <;> cases h
  rw [hx, State.load_outOfBounds ext rt hb, State.finish_error]

/-- Settles O7: reads and writes of register 0 by their rules, the two kinds of instruction with destination 0 by the two lemmas
above. -/
theorem registerZeroIsHardWired : Obligations.RegisterZeroIsHardWired :=
  ⟨State.reg_zero, State.writeReg_zero, fun _ _ t _ => t.reg_zero, fun _ _ _ => exec_next_destination_zero,
    fun _ _ _ _ _ _ => exec_load_outOfBounds⟩

/-! Which registers an instruction reads and writes (10_state.md R22) -/

/-- The result `r` of an instruction writes the register the instruction names as its destination, and no other. -/
def WritesOnlyDestination (i : Instr) (r : Except Cause Effect) : Prop :=
  ∀ e, r = .ok e → e.register.map Prod.fst = registerWritten i

theorem State.load_writesOnlyDestination {i : Instr} (s : State) (w : AccessWidth) (ext : Word → Word) {rt : RegIdx}
    (hw : registerWritten i = some rt) (rs : RegIdx) (imm : Imm16) : WritesOnlyDestination i (s.load w ext rt rs imm) := by
  intro e he
  unfold State.load at he
  split at he <;> cases he
  exact hw.symm

theorem State.store_writesOnlyDestination {i : Instr} (s : State) (w : AccessWidth) (hw : registerWritten i = none)
    (rt rs : RegIdx) (imm : Imm16) : WritesOnlyDestination i (s.store w rt rs imm) := by
  intro e he
  unfold State.store at he
  dsimp only at he
  split at he <;> cases he
  exact hw.symm

theorem State.transfer_writesOnlyDestination {i : Instr} (s : State) (hw : registerWritten i = none) (b : Option Word) :
    WritesOnlyDestination i (s.transfer { branch := b }) := by
  intro e he
  unfold State.transfer at he
  split at he <;> cases he
  exact hw.symm

section
variable {s : State} {x : Vector Word 32}

theorem State.load_congr (w : AccessWidth) (ext : Word → Word) (rt : RegIdx) {rs : RegIdx} (imm : Imm16)
    (h : ({ s with x := x } : State).reg rs = s.reg rs) :
    ({ s with x := x } : State).load w ext rt rs imm = s.load w ext rt rs imm := by
  simp only [State.load, State.effectiveAddress, h]; rfl

theorem takenTarget_congr {i : Instr} (h : ∀ r ∈ registersRead i, ({ s with x := x } : State).reg r = s.reg r) :
    takenTarget { s with x := x } i = takenTarget s i := by
  cases i
  case beq rs rt imm =>
    have hs := h rs (by simp [registersRead])
    have ht := h rt (by simp [registersRead])
    simp only [takenTarget, hs, ht]
  all_goals rfl

theorem State.store_congr (w : AccessWidth) {rt rs : RegIdx} (imm : Imm16) (hs : ({ s with x := x } : State).reg rs = s.reg rs)
    (ht : ({ s with x := x } : State).reg rt = s.reg rt) :
    ({ s with x := x } : State).store w rt rs imm = s.store w rt rs imm := by
  simp only [State.store, State.effectiveAddress, hs, ht]; rfl

end

/-- A J or BEQ commits the branch it takes, if any, unless it is rejected in a delay slot. -/
theorem exec_transfer {i : Instr} (ht : isTransfer i = true) (s : State) :
    exec i s = s.finish (s.transfer { branch := takenTarget s i }) := by
  rcases exec_cases i s with ⟨h, -⟩ | ⟨h, -⟩ | ⟨h, -⟩ | ⟨-, -, -, hx⟩
  case inr.inr.inr => exact hx
  all_goals rw [ht] at h; cases h

/-- An instruction's result is the same in two states that agree on everything but registers it does not read; all it can write of
the registers is its destination. -/
theorem exec_result_of_sources {i : Instr} {s : State} {x : Vector Word 32}
    (h : ∀ r ∈ registersRead i, ({ s with x := x } : State).reg r = s.reg r) :
    ∃ r, WritesOnlyDestination i r ∧ exec i s = s.finish r ∧
      exec i { s with x := x } = ({ s with x := x } : State).finish r := by
  cases i
  case lb | lbu | lh | lhu | lw =>
    exact ⟨_, State.load_writesOnlyDestination s _ _ rfl _ _, rfl,
      congrArg (State.finish _) (State.load_congr _ _ _ _ (h _ (by simp [registersRead])))⟩
  case sb | sh | sw =>
    exact ⟨_, State.store_writesOnlyDestination s _ rfl _ _ _, rfl,
      congrArg (State.finish _) (State.store_congr _ _ (h _ (by simp [registersRead])) (h _ (by simp [registersRead])))⟩
  case j | beq =>
    refine ⟨_, State.transfer_writesOnlyDestination s rfl _, exec_transfer rfl s, ?_⟩
    rw [exec_transfer rfl, takenTarget_congr h]; rfl
  all_goals
    refine ⟨.ok (.writes _ _), fun e he => by cases he; rfl, rfl, ?_⟩
    simp only [registersRead, List.forall_mem_cons, List.not_mem_nil, false_imp_iff, implies_true, and_true] at h
    simp only [exec, execLui, execOri, execAddiu, execAndi, execXori, execAddu, execSubu, execAnd, execOr, execXor, execNor,
      execSlt, execSltu, execSll, execSrl, execSra, execSllv, execSrlv, execSrav, h]

/-- A commit leaves every register as it was but the one its effect writes. -/
theorem State.commit_reg_of_ne (s : State) {e : Effect} {q : RegIdx} (h : e.register.map Prod.fst ≠ some q) :
    (s.commit e).reg q = s.reg q := by
  rw [State.commit_reg]
  cases hr : e.register with
  | none => rfl
  | some p =>
    have hq : ¬ q = p.1 := fun hq => h (by rw [hr, hq]; rfl)
    simp [State.applyRegister, State.reg_writeReg, hq]

/-- The register an effect writes reads the same after its commit to any state. -/
theorem State.commit_reg_written (s u : State) {e : Effect} {q : RegIdx} (h : e.register.map Prod.fst = some q) :
    (u.commit e).reg q = (s.commit e).reg q := by
  obtain ⟨⟨r, v⟩, hr, rfl⟩ := Option.map_eq_some_iff.mp h
  rw [State.commit_reg, State.commit_reg, hr]
  by_cases h0 : r = 0 <;> simp [State.applyRegister, State.reg_writeReg, h0]

/-- A commit changes memory alike in states with the same memory and byte order. -/
theorem State.commit_mem_congr {s u : State} (hcf : u.config = s.config) (hm : u.mem = s.mem) (e : Effect) :
    (u.commit e).mem = (s.commit e).mem := by
  rw [State.commit_mem, State.commit_mem]
  cases e.store with
  | none => exact hm
  | some p => simp [State.applyStore, hcf, hm]

/-- A commit moves `pc` and the delay-slot state alike in states that agree on them and on the policy. -/
theorem State.commit_pc_control_congr {s u : State} (hcf : u.config = s.config) (hpc : u.pc = s.pc)
    (hct : u.control = s.control) (e : Effect) :
    (u.commit e).pc = (s.commit e).pc ∧ (u.commit e).control = (s.commit e).control := by
  obtain ⟨hsp, hsc⟩ := s.commit_pc_control e
  obtain ⟨hup, huc⟩ := u.commit_pc_control e
  rw [hsp, hsc, hup, huc]
  exact State.advance_congr hcf hpc hct e.branch

/-- Settles O8: both runs commit or raise one and the same result, and its register write is the destination's. -/
theorem registersReadAndWritten : Obligations.RegistersReadAndWritten := by
  rintro i s u ⟨x, rfl⟩ h
  obtain ⟨r, hr, hs, hu⟩ := exec_result_of_sources h
  rw [hs, hu]
  cases r with
  | error c => exact ⟨nofun, fun f hf => by cases hf; rfl⟩
  | ok e =>
    refine ⟨fun t ht => ?_, nofun⟩
    cases ht
    obtain ⟨hpc, hct⟩ := State.commit_pc_control_congr (s := s) (u := { s with x := x }) rfl rfl rfl e
    refine ⟨_, rfl, hpc, hct, State.commit_mem_congr (by rfl) (by rfl) e, by simp, by simp, fun q => ?_⟩
    rw [← hr e rfl]
    exact ⟨State.commit_reg_written s _, fun hq => ⟨State.commit_reg_of_ne s hq, State.commit_reg_of_ne _ hq⟩⟩

/-! Construction (10_state.md R34) -/

/-- Settles O1: the fields as `construct` fills them, and memory as the image's bytes written into an empty one. -/
theorem constructionGivesResetValues : Obligations.ConstructionGivesResetValues := by
  intro c hc
  refine ⟨_, if_pos hc, rfl, fun r => ?_, rfl, rfl, rfl, rfl, fun i hi => ?_, fun a ha => ?_⟩
  · simp [State.reg]
  · exact Memory.read_writeBytes_inside Memory.wf_nil hi
  · exact (Memory.read_writeBytes_outside Memory.wf_nil ha).trans (Memory.read_nil a)

end Sys2Proof.Machine
end

section
/-! The statements of 20_memory.md: what a read and a write do in either byte order, the bounds check, and who reads and writes
memory. -/

namespace Sys2Proof

/-! Byte order, byte by byte (20_memory.md R42, R43) -/

/-- In little-endian order a value is the sum of its bytes, each at the place of its index. -/
theorem leValue_map_range (f : Nat → Byte) (n : Nat) :
    leValue ((List.range n).map f) = ((List.range n).map fun i => (f i).toNat * 2 ^ (8 * i)).sum := by
  induction n generalizing f with
  | zero => rfl
  | succ n ih =>
    have hplace : ∀ i, (f (i + 1)).toNat * 2 ^ (8 * (i + 1)) = 256 * ((f (i + 1)).toNat * 2 ^ (8 * i)) := fun i => by ring
    have hrest := ih fun i => f (i + 1)
    simp [List.range_succ_eq_map, leValue, hrest, Function.comp_def, hplace, List.sum_map_mul_left]

/-- In big-endian order the places count down from the last byte. -/
theorem leValue_reverse_map_range (f : Nat → Byte) (n : Nat) :
    leValue ((List.range n).map f).reverse = ((List.range n).map fun i => (f i).toNat * 2 ^ (8 * (n - 1 - i))).sum := by
  have hrev : (List.range n).reverse = (List.range n).map (n - 1 - ·) := by
    rw [List.range_eq_range', List.reverse_range', List.range_eq_range']; simp
  rw [← List.map_reverse, hrev, List.map_map, leValue_map_range, ← List.sum_reverse, ← List.map_reverse, hrev, List.map_map]
  refine congrArg List.sum (List.map_congr_left fun i hi => ?_)
  have hi := List.mem_range.mp hi
  simp [show n - 1 - (n - 1 - i) = i by omega]

theorem getElem_bytesOf_little {n i : Nat} (v : Word) (h : i < n) :
    (bytesOf .little n v)[i]'(by simpa using h) = v.extractLsb' (8 * i) 8 := getElem_leBytes v h

theorem getElem_bytesOf_big {n i : Nat} (v : Word) (h : i < n) :
    (bytesOf .big n v)[i]'(by simpa using h) = v.extractLsb' (8 * (n - 1 - i)) 8 := by
  simp only [bytesOf, List.getElem_reverse, length_leBytes]
  exact getElem_leBytes v (by omega)

end Sys2Proof

namespace Sys2Proof.Machine

/-! Reads and writes of `n` bytes (20_memory.md R42, R43) -/

theorem AccessWidth.bytes_le_four (w : AccessWidth) : w.bytes ≤ 4 := by cases w <;> decide

/-- The bytes of an access fit a word, so a read loses none of their value. -/
theorem toNat_valueOf_readBytes (o : ByteOrder) (m : Memory) (a : Nat) (w : AccessWidth) :
    (BitVec.ofNat 32 (valueOf o (m.readBytes a w.bytes))).toNat = valueOf o (m.readBytes a w.bytes) := by
  have hlt := valueOf_lt o (m.readBytes a w.bytes)
  rw [Memory.length_readBytes] at hlt
  have hle : 256 ^ w.bytes ≤ 256 ^ 4 := Nat.pow_le_pow_right (by decide) w.bytes_le_four
  exact BitVec.toNat_ofNat _ _ |>.trans (Nat.mod_eq_of_lt (by omega))

/-- Settles O35: the value of the bytes read as a sum, in each byte order. -/
theorem memReadSumsTheBytes : Obligations.MemReadSumsTheBytes := by
  refine ⟨fun s a w k hb => ⟨_, State.memRead_inBounds k hb, fun ho => ?_, fun ho => ?_⟩,
    fun s a w k => State.memRead_outOfBounds k⟩ <;> rw [toNat_valueOf_readBytes, ho]
  · exact leValue_map_range _ _
  · exact leValue_reverse_map_range _ _

/-- Settles O36: the bytes written are those of the value in the byte order, and every other address is outside them. -/
theorem memWritePlacesTheBytes : Obligations.MemWritePlacesTheBytes := by
  intro s a w v hwf
  refine ⟨fun i hi => ?_, fun c hc => Memory.read_writeBytes_outside hwf (by rwa [length_bytesOf])⟩
  have hread : (s.storeBytes a w v).mem.read (a.toNat + i) = (bytesOf s.config.byteOrder w.bytes v)[i]'(by simpa using hi) :=
    Memory.read_writeBytes_inside hwf (by simpa using hi)
  rw [hread]
  cases s.config.byteOrder with
  | little => exact getElem_bytesOf_little v hi
  | big => exact getElem_bytesOf_big v hi

/-- Some of the bytes read from an address on are a slice of a longer read that covers them. -/
theorem Memory.readBytes_slice (m : Memory) (a : Nat) {i k n : Nat} (h : i + k ≤ n) :
    m.readBytes (a + i) k = ((m.readBytes a n).drop i).take k := by
  refine List.ext_getElem (by simp; omega) fun j _ _ => ?_
  simp [Memory.readBytes, Nat.add_assoc]

/-- A read inside bytes that are known gives the value of its slice of them. -/
theorem State.memRead_slice {s : State} {a b : Word} {i n : Nat} {bs : List Byte} {w : AccessWidth} (k : AccessKind)
    (hbs : s.mem.readBytes a.toNat n = bs) (hb : b.toNat = a.toNat + i) (hi : i + w.bytes ≤ n)
    (hn : a.toNat + n ≤ s.config.memSize) :
    s.memRead b w k = .ok (BitVec.ofNat 32 (valueOf s.config.byteOrder ((bs.drop i).take w.bytes))) := by
  rw [State.memRead_inBounds k (by omega), hb, Memory.readBytes_slice _ _ hi, hbs]

/-- Reading back the bytes of an access just stored. -/
theorem State.readBytes_storeBytes {s : State} (h : s.mem.wf) (a : Word) (w : AccessWidth) (v : Word) :
    (s.storeBytes a w v).mem.readBytes a.toNat w.bytes = bytesOf s.config.byteOrder w.bytes v := by
  simpa using Memory.readBytes_writeBytes h a.toNat (bytesOf s.config.byteOrder w.bytes v)

theorem memSize_le_of_configAccepted {c : Config} (h : configAccepted c = true) : c.memSize ≤ 2 ^ 32 := by
  simp only [configAccepted, Bool.and_eq_true, decide_eq_true_eq] at h
  obtain ⟨⟨⟨-, h⟩, -⟩, -⟩ := h
  exact h

/-- Settles O38: the four bytes are the word's bytes in the byte order, and each narrower read is a slice of them. -/
theorem mixedWidthAccess : Obligations.MixedWidthAccess := by
  rintro s t a hwf hc hb rfl
  have hsize := memSize_le_of_configAccepted hc
  have hbytes := State.readBytes_storeBytes hwf a .word 0x1234ABCD
  have htwo : (a + 2).toNat = a.toNat + 2 := by
    have h2 : (2 : Word).toNat = 2 := rfl
    rw [BitVec.toNat_add, h2]; omega
  have hbyte := State.memRead_slice (b := a) (i := 0) (w := .byte) .load hbytes rfl (by decide) hb
  have hhalf := State.memRead_slice (b := a + 2) (i := 2) (w := .half) .load hbytes htwo (by decide) hb
  rw [State.storeBytes_config] at hbyte hhalf
  constructor <;> intro ho <;> rw [ho] at hbytes hbyte hhalf <;> exact ⟨hbytes, hbyte, hhalf⟩

/-! The bounds check of a load or store (20_memory.md R44) -/

section
variable {i : Instr} {s : State} {w : AccessWidth} {k : AccessKind} {rs : RegIdx} {imm : Imm16}

/-- An instruction with a data access is a load or a store, as the access's kind says. -/
theorem exec_access (s : State) (hd : dataAccess i = some (w, k, rs, imm)) :
    (k = .load ∧ ∃ ext rt, exec i s = s.finish (s.load w ext rt rs imm)) ∨
      (k = .store ∧ ∃ rt, exec i s = s.finish (s.store w rt rs imm)) := by
  rcases exec_cases i s with ⟨-, h, -⟩ | ⟨-, _, _, _, rt, ext, h, -, hx⟩ | ⟨-, _, _, _, rt, h, -, hx⟩ | ⟨-, h, -⟩ <;>
    rw [hd] at h <;> cases h
  · exact .inl ⟨rfl, ext, rt, hx⟩
  · exact .inr ⟨rfl, rt, hx⟩

/-- A load or store out of bounds raises OutOfBoundsAccess with its address, width and kind. -/
theorem exec_access_outOfBounds (hd : dataAccess i = some (w, k, rs, imm))
    (hb : s.config.memSize < (s.effectiveAddress rs imm).toNat + w.bytes) :
    exec i s = .fault (.fatal (.outOfBoundsAccess (s.effectiveAddress rs imm) w k)) := by
  rcases exec_access s hd with ⟨rfl, ext, rt, hx⟩ | ⟨rfl, rt, hx⟩
  · rw [hx, State.load_outOfBounds ext rt hb, State.finish_error]
  · rw [hx, State.store_outOfBounds rt hb, State.finish_error]

/-- A load or store in bounds completes. -/
theorem exec_access_inBounds (hd : dataAccess i = some (w, k, rs, imm))
    (hb : (s.effectiveAddress rs imm).toNat + w.bytes ≤ s.config.memSize) : ∃ e, exec i s = .next (s.commit e) := by
  rcases exec_access s hd with ⟨-, ext, rt, hx⟩ | ⟨-, rt, hx⟩
  · exact ⟨_, by rw [hx, State.load_inBounds ext rt hb, State.finish_ok]⟩
  · exact ⟨_, by rw [hx, State.store_inBounds rt hb, State.finish_ok]⟩

end

/-- A step of a running core executes the instruction at `pc` and catches what it raises. -/
theorem step_at {s : State} {i : Instr} (hs : s.status = .running) (hi : InstructionAtPc s i) :
    step s = s.catchFatal (wordAt s s.pc.toNat) (exec i s) := by
  simp only [step, hs, State.fetchDecode_at hi]

/-- Settles O37: out of bounds a read, a load and a store raise, and the step records it; in bounds each completes. -/
theorem boundsAreChecked : Obligations.BoundsAreChecked := by
  refine ⟨fun s a w k => ⟨fun h => ?_, State.memRead_outOfBounds k⟩,
    fun i s w k rs imm hd => ⟨fun h => ?_, exec_access_outOfBounds hd⟩,
    fun i s w k rs imm hs hi hd => ⟨fun hb => ?_, fun hb => ?_⟩⟩
  · by_contra hb
    rw [State.memRead_inBounds k (by omega)] at h
    cases h
  · by_contra hb
    obtain ⟨e, he⟩ := exec_access_inBounds hd (Nat.le_of_not_lt hb)
    rw [he] at h
    cases h
  · exact ⟨_, by rw [step_at hs hi, exec_access_outOfBounds hd hb]; rfl, rfl⟩
  · obtain ⟨e, he⟩ := exec_access_inBounds hd hb
    exact ⟨_, he, by rw [step_at hs hi, he]; rfl, (State.commit_status s e).trans hs⟩

/-! Who writes memory, and what a fetch sees (20_memory.md R52, R58) -/

/-- A store that completes was in bounds, and its commit is all it did. -/
theorem State.store_next {s t : State} {w : AccessWidth} {rt rs : RegIdx} {imm : Imm16}
    (h : s.finish (s.store w rt rs imm) = .next t) :
    (s.effectiveAddress rs imm).toNat + w.bytes ≤ s.config.memSize ∧
      t = s.commit (.stores (s.effectiveAddress rs imm) w (s.reg rt)) := by
  by_cases hb : (s.effectiveAddress rs imm).toNat + w.bytes ≤ s.config.memSize
  · rw [State.store_inBounds rt hb] at h
    cases h
    exact ⟨hb, rfl⟩
  · rw [State.store_outOfBounds rt (by omega)] at h
    cases h

/-- An instruction that is not a store leaves memory as it was. -/
theorem exec_mem_of_not_store {i : Instr} {s t : State} (h : exec i s = .next t) (hi : isStore i = false) : t.mem = s.mem := by
  rcases exec_next h with ⟨r, v, -, -, -, rfl⟩ | ⟨w, rs, imm, rt, hd, -⟩ | ⟨-, -, -, -, rfl⟩
  · exact State.commit_mem s _
  · simp [isStore, hd] at hi
  · exact State.advance_mem s _

/-- A store that completes changes its own bytes and no others. -/
theorem exec_store_storesBytes {i : Instr} {s t : State} {w : AccessWidth} {rs : RegIdx} {imm : Imm16} (hwf : s.mem.wf)
    (h : exec i s = .next t) (hd : dataAccess i = some (w, .store, rs, imm)) :
    ∃ v, StoresBytes s t (s.effectiveAddress rs imm).toNat (bytesOf s.config.byteOrder w.bytes v) := by
  obtain ⟨hk, -⟩ | ⟨-, rt, hx⟩ := exec_access s hd
  · cases hk
  obtain ⟨-, rfl⟩ := State.store_next (hx ▸ h)
  exact ⟨_, State.storesBytes hwf _ _ _⟩

/-- Settles O40: by what an instruction that completes did to memory, not a store or a store. -/
theorem onlyStoresWriteMemory : Obligations.OnlyStoresWriteMemory := by
  refine ⟨fun i s t => exec_mem_of_not_store, fun i s t w rs imm hwf h hd c hc => ?_⟩
  obtain ⟨v, ⟨-, hframe⟩, -⟩ := exec_store_storesBytes hwf h hd
  exact hframe c (by rwa [length_bytesOf])

/-- Settles O41: a fetch in bounds reads the word at `pc`, which after the SW is the word its bytes spell. -/
theorem fetchSeesEveryStore : Obligations.FetchSeesEveryStore := by
  refine ⟨fun s => State.fetch_inBounds, fun rt rs imm s t hwf h hpc => ?_⟩
  obtain ⟨hb, rfl⟩ := State.store_next (w := .word) h
  obtain ⟨⟨hbytes, -⟩, -, ⟨hcfg, -⟩, -⟩ := State.storesBytes hwf (s.effectiveAddress rs imm) .word (s.reg rt)
  rw [show AccessWidth.word.bytes = 4 from rfl, bytesOf_word] at hbytes
  rw [State.fetch_inBounds (by rwa [hcfg, ← hpc]), ← hpc, wordAt_of_bytes hcfg hbytes]

end Sys2Proof.Machine
end

section
/-! The statements of 30_encoding.md: decoding against the encoder and against the opcode table, the words outside it, operands as
numbers and as an assembler stores them, and the pseudo-instructions. -/

namespace Sys2Proof

/-! A word that decodes is an encoding (30_encoding.md R69, R70) -/

theorem encodeI_of_opField {w : Word} {op : BitVec 6} (h : opField w = op) :
    encodeI op (rsField w) (rtField w) (immField w) = w := h ▸ encodeI_fields w

theorem encodeJ_of_opField {w : Word} {op : BitVec 6} (h : opField w = op) : encodeJ op (targetField w) = w :=
  h ▸ encodeJ_fields w

/-- A word with `op = 0` is the encoding of what its function code selects. -/
theorem encode_of_decodeSpecial {w : Word} {i : Instr} (hop : opField w = 0#6) (h : decodeSpecial w = .ok i) :
    encode i = w := by
  have hw := encodeR_fields w hop
  unfold decodeSpecial at h
  split at h
  case h_1 hfn | h_2 hfn | h_3 hfn =>
    obtain ⟨hrs, rfl⟩ := shiftImm_ok h
    rw [hrs, hfn] at hw
    exact hw
  case h_15 => cases h
  all_goals
    rename_i hfn
    obtain ⟨hsa, rfl⟩ := threeReg_ok h
    rw [hsa, hfn] at hw
    exact hw

/-- A word that decodes is the encoding of what it decodes to. -/
theorem encode_of_decode {w : Word} {i : Instr} (h : decode w = .ok i) : encode i = w := by
  unfold decode at h
  split at h
  case h_1 hop => exact encode_of_decodeSpecial hop h
  case h_2 hop => cases h; exact encodeJ_of_opField hop
  case h_8 hop =>
    split at h <;> cases h
    rename_i hrs
    have hw := encodeI_of_opField hop
    rw [hrs] at hw
    exact hw
  case h_17 => cases h
  all_goals
    cases h
    exact encodeI_of_opField ‹_›

/-- Settles O10: the fields a case of the decoder fixes or wants zero, and those it reads, are the whole word. -/
theorem encodeOfDecode : Obligations.EncodeOfDecode := fun _ _ => encode_of_decode

/-! The opcode table (30_encoding.md R71) -/

/-- The word of every instruction belongs to the row of its own name. -/
theorem row_admits_encode (i : Instr) : i.mnemonic.row.admits (encode i) = true := by
  cases i
  case lui => exact Laws.TableRow.lui ..
  case sll | srl | sra => exact (Laws.TableRow.statement_iff _).mpr (Laws.TableRow.shiftRow ..)
  case addu | subu | and | or | xor | nor | slt | sltu | sllv | srlv | srav =>
    exact (Laws.TableRow.statement_iff _).mpr (Laws.TableRow.regRow ..)
  case j => exact Laws.TableRow.j ..
  all_goals exact (Laws.TableRow.statement_iff _).mpr (Laws.TableRow.opRow ..)

/-- A field that a row's mask keeps whole has the value it has in the row's pattern. -/
theorem field_of_admits {r : OpcodeRow} {w : Word} (h : r.admits w = true) {start len : Nat}
    (hm : r.mask.extractLsb' start len = BitVec.allOnes len) :
    w.extractLsb' start len = r.pattern.extractLsb' start len := by
  have h : w &&& r.mask = r.pattern := beq_iff_eq.mp h
  rw [← h, BitVec.extractLsb'_and, hm, BitVec.and_allOnes]

/-- A word of a row decodes to an instruction of the row's name. -/
theorem mnemonic_decode_of_admits {w : Word} {m : Mnemonic} (h : m.row.admits w = true) :
    (decode w).map Instr.mnemonic = .ok m := by
  have hop : opField w = m.row.pattern.extractLsb' 26 6 := field_of_admits h (by cases m <;> rfl)
  cases m
  case lui =>
    have hrs : rsField w = 0#5 := field_of_admits h rfl
    unfold decode
    rw [hop]
    exact congrArg (Except.map _) (if_pos hrs)
  case sll | srl | sra | addu | subu | and | or | xor | nor | slt | sltu | sllv | srlv | srav =>
    have hfn : functField w = _ := field_of_admits h rfl
    rw [decode_special hop]
    unfold decodeSpecial
    rw [hfn]
    refine congrArg (Except.map _) (if_pos ?_)
    exact field_of_admits h rfl
  all_goals
    unfold decode
    rw [hop]
    rfl

/-- A word belongs to a row exactly when it decodes to an instruction of the row's name. -/
theorem admits_iff_decode (w : Word) (m : Mnemonic) : m.row.admits w = true ↔ ∃ i, decode w = .ok i ∧ i.mnemonic = m := by
  constructor
  · intro h
    have hm := mnemonic_decode_of_admits h
    cases hd : decode w with
    | error e => rw [hd] at hm; cases hm
    | ok i => rw [hd] at hm; exact ⟨i, rfl, Except.ok.inj hm⟩
  · rintro ⟨i, hd, rfl⟩
    rw [← encode_of_decode hd]
    exact row_admits_encode i

/-- Settles O11: a word has one decoding, which names its row if it has one. -/
theorem decodeIsTheOpcodeTable : Obligations.DecodeIsTheOpcodeTable := by
  refine ⟨admits_iff_decode, fun w m k hm hk => ?_, fun w => ?_⟩
  · obtain ⟨i, hi, rfl⟩ := (admits_iff_decode w m).mp hm
    obtain ⟨j, hj, rfl⟩ := (admits_iff_decode w k).mp hk
    cases hi.symm.trans hj
    rfl
  · simp only [← Bool.not_eq_true, admits_iff_decode]
    cases decode w <;> simp

/-! Words outside the table (30_encoding.md R75): the fields of every instruction's word are as the maps and R69 want them -/

/-- A word is rejected when no instruction encodes to it. -/
theorem decode_error_of_encode_ne {w : Word} (h : ∀ i, encode i ≠ w) : ∃ e, decode w = .error e := by
  cases hd : decode w with
  | error e => exact ⟨e, rfl⟩
  | ok i => exact absurd (encode_of_decode hd) (h i)

section
variable {i : Instr}

/-- The primary opcode map (R67). -/
theorem opField_encode_mem (i : Instr) :
    opField (encode i) ∈ [0x00#6, 0x02#6, 0x04#6, 0x09#6, 0x0C#6, 0x0D#6, 0x0E#6, 0x0F#6] ++
      [0x20#6, 0x21#6, 0x23#6, 0x24#6, 0x25#6, 0x28#6, 0x29#6, 0x2B#6] := by
  cases i <;> simp [encode]

/-- The SPECIAL map (R68). -/
theorem functField_encode_mem (hop : opField (encode i) = 0#6) :
    functField (encode i) ∈ [0x00#6, 0x02#6, 0x03#6, 0x04#6, 0x06#6, 0x07#6] ++
      [0x21#6, 0x23#6, 0x24#6, 0x25#6, 0x26#6, 0x27#6, 0x2A#6, 0x2B#6] := by
  cases i
  case addu | subu | and | or | xor | nor | slt | sltu | sllv | srlv | srav | sll | srl | sra => simp [encode]
  all_goals simp [encode] at hop

theorem shamtField_encode_of_threeReg (hop : opField (encode i) = 0#6)
    (hfn : functField (encode i) ∈ [0x21#6, 0x23#6, 0x24#6, 0x25#6, 0x26#6, 0x27#6, 0x2A#6, 0x2B#6] ++ [0x04#6, 0x06#6, 0x07#6]) :
    shamtField (encode i) = 0#5 := by
  cases i
  case addu | subu | and | or | xor | nor | slt | sltu | sllv | srlv | srav => exact shamtField_encodeR ..
  case sll | srl | sra => simp [encode] at hfn
  all_goals simp [encode] at hop

theorem rsField_encode_of_shift (hop : opField (encode i) = 0#6)
    (hfn : functField (encode i) ∈ [0x00#6, 0x02#6, 0x03#6]) : rsField (encode i) = 0#5 := by
  cases i
  case sll | srl | sra => exact rsField_encodeR ..
  case addu | subu | and | or | xor | nor | slt | sltu | sllv | srlv | srav => simp [encode] at hfn
  all_goals simp [encode] at hop

theorem rsField_encode_of_lui (hop : opField (encode i) = 0x0F#6) : rsField (encode i) = 0#5 := by
  cases i
  case lui => exact rsField_encodeI ..
  all_goals simp [encode] at hop

end

/-- A running core that fetches a word that does not decode records UnsupportedInstruction. -/
theorem Machine.step_unsupported {s : State} {e : DecodeError} (hs : s.status = .running)
    (hb : s.pc.toNat + 4 ≤ s.config.memSize) (hd : decode (wordAt s s.pc.toNat) = .error e) :
    step s = .next (s.takeFatal .unsupportedInstruction (some (wordAt s s.pc.toNat))) := by
  simp only [step, hs, State.fetchDecode, State.fetch_inBounds hb, hd]

/-- Settles O12: no instruction's word is such a word, so none decodes; the step records what the decoder says. -/
theorem wordsOutsideTheTableStopTheCore : Obligations.WordsOutsideTheTableStopTheCore := by
  refine ⟨fun w hop => ?_, fun w hop hfn => ?_, fun w hop hfn hsa => ?_, fun w hop hfn hrs => ?_, fun w hop hrs => ?_,
    fun s e hs hb hd => ⟨_, Machine.step_unsupported hs hb hd, rfl, rfl, rfl⟩⟩ <;>
    refine decode_error_of_encode_ne ?_ <;> rintro i rfl
  · exact hop (opField_encode_mem i)
  · exact hfn (functField_encode_mem hop)
  · exact hsa (shamtField_encode_of_threeReg hop hfn)
  · exact hrs (rsField_encode_of_shift hop hfn)
  · exact hrs (rsField_encode_of_lui hop)

/-! Examples (30_encoding.md R84) and the zero word (R72) -/

/-- Settles O13, by running the decoder. -/
theorem exampleWordsDecode : Obligations.ExampleWordsDecode := by
  unfold Obligations.ExampleWordsDecode
  decide

/-- `nop` only advances: its register write is discarded. -/
theorem Machine.exec_nop (s : State) : exec nop s = .next (s.advance none) := by
  have h : exec nop s = .next ((s.writeReg 0 (s.reg 0 <<< (0#5).toNat)).advance none) := rfl
  rw [h, State.writeReg_zero]

/-- Settles O14: the advance, out of a delay slot and in one. -/
theorem zeroWordIsNop : Obligations.ZeroWordIsNop :=
  ⟨by decide, fun s h => (Machine.exec_nop s).trans (congrArg Host.Outcome.next (Machine.State.advance_normal_none h)),
    fun s p h => (Machine.exec_nop s).trans (congrArg Host.Outcome.next (Machine.State.advance_pending_none h))⟩

end Sys2Proof

namespace Sys2Proof.Machine

/-! Operands as numbers (30_encoding.md R65) -/

theorem toNat_zeroImm (imm : Imm16) : (zeroImm imm).toNat = imm.toNat := BitVec.toNat_setWidth_of_le (by decide)

theorem toNat_upperImm (imm : Imm16) : (upperImm imm).toNat = imm.toNat * 2 ^ 16 := by
  have h : (upperImm imm).toNat = imm.toNat * 2 ^ 16 + (0#16).toNat := toNat_append_mul imm 0#16
  simpa using h

theorem toInt_append_two_zeros (imm : Imm16) : (imm ++ 0#2 : BitVec 18).toInt = imm.toInt * 4 := by
  rw [BitVec.toInt_append_zero, Int.mul_comm]; rfl

/-- The offset of a BEQ is the sign extension of its field joined with two zero bits. -/
theorem branchOffset_eq_signExtend (imm : Imm16) : branchOffset imm = (imm ++ 0#2 : BitVec 18).signExtend 32 := by
  refine BitVec.eq_of_toInt_eq ?_
  have hlt := imm.toInt_lt
  have hle := imm.le_toInt
  have hnat := toNat_eq_toInt_emod (signImm imm)
  rw [toInt_signImm] at hnat
  rw [BitVec.toInt_signExtend_of_le (by decide), toInt_append_two_zeros, branchOffset, BitVec.toInt_shiftLeft,
    Nat.shiftLeft_eq, Int.bmod_def]
  omega

theorem toInt_branchOffset (imm : Imm16) : (branchOffset imm).toInt = imm.toInt * 4 := by
  rw [branchOffset_eq_signExtend, BitVec.toInt_signExtend_of_le (by decide), toInt_append_two_zeros]

theorem toNat_jumpTarget (pc : Word) (target : Target26) :
    (jumpTarget pc target).toNat = (pc + 4).toNat / 2 ^ 28 * 2 ^ 28 + target.toNat * 4 := by
  have hlt := (pc + 4).isLt
  have h : (jumpTarget pc target).toNat = ((pc + 4).extractLsb' 28 4 ++ target).toNat * 2 ^ 2 + (0#2).toNat :=
    toNat_append_mul _ _
  rw [h, toNat_append_mul, BitVec.extractLsb'_toNat, Nat.shiftRight_eq_div_pow, BitVec.toNat_ofNat]
  omega

theorem toNat_add_four (pc : Word) : (pc + 4).toNat = (pc.toNat + 4) % 2 ^ 32 := BitVec.toNat_add pc 4

/-- The sum of a word and a signed number, modulo 2^32. -/
theorem toNat_add_eq_toInt_emod (a b : Word) : ((a + b).toNat : Int) = (a.toNat + b.toInt) % 2 ^ 32 := by
  have hb := toNat_eq_toInt_emod b
  rw [BitVec.toNat_add]
  omega

theorem toNat_branchTarget (pc : Word) (imm : Imm16) :
    ((branchTarget pc imm).toNat : Int) = ((pc + 4).toNat + imm.toInt * 4) % 2 ^ 32 := by
  rw [branchTarget, toNat_add_eq_toInt_emod, toInt_branchOffset]

/-- Settles O15: each operand's value, as a number, by the lemmas above. -/
theorem operandsAreBuilt : Obligations.OperandsAreBuilt := by
  refine ⟨toNat_zeroImm, toInt_signImm, toNat_upperImm, fun imm => ⟨toInt_branchOffset imm, branchOffset_eq_signExtend imm⟩,
    fun pc target => ?_, fun v => ?_, fun s rs imm => ?_⟩
  · rw [toNat_jumpTarget, toNat_add_four]
  · exact BitVec.extractLsb'_toNat 0 5 v
  · rw [State.effectiveAddress, toNat_add_eq_toInt_emod, toInt_signImm]

/-! Operands as an assembler stores them (30_encoding.md R83) -/

/-- A field stores a number modulo its size. -/
theorem ofInt_eq_iff_toNat {n : Nat} {a : Int} (v : BitVec n) : BitVec.ofInt n a = v ↔ (v.toNat : Int) = a % (2 ^ n : Nat) := by
  have h0 : 0 ≤ a % (2 ^ n : Nat) := Int.emod_nonneg a (by positivity)
  rw [← BitVec.toNat_inj, BitVec.toNat_ofInt]
  omega

/-- A signed number of 16 bits is stored in the one field that has its signed value. -/
theorem ofInt_eq_iff_toInt {a : Int} (h0 : -32768 ≤ a) (h1 : a ≤ 32767) (v : Imm16) :
    BitVec.ofInt 16 a = v ↔ v.toInt = a := by
  rw [← BitVec.toInt_inj, BitVec.toInt_ofInt_eq_self (by decide) (by omega) (by omega)]
  exact eq_comm

theorem unsignedOperand_eq_some (n : Int) (imm : Imm16) :
    unsignedOperand n = some imm ↔ 0 ≤ n ∧ n ≤ 0xFFFF ∧ (imm.toNat : Int) = n := by
  unfold unsignedOperand
  rw [Option.ite_none_right_eq_some, and_assoc, Option.some_inj]
  exact and_congr_right fun h0 => and_congr_right fun h1 => by rw [ofInt_eq_iff_toNat]; omega

theorem signedOperand_eq_some (n : Int) (imm : Imm16) :
    signedOperand n = some imm ↔ -32768 ≤ n ∧ n ≤ 32767 ∧ imm.toInt = n := by
  unfold signedOperand
  rw [Option.ite_none_right_eq_some, and_assoc, Option.some_inj]
  exact and_congr_right fun h0 => and_congr_right fun h1 => ofInt_eq_iff_toInt h0 h1 imm

theorem shamtOperand_eq_some (n : Int) (sa : Shamt) :
    shamtOperand n = some sa ↔ 0 ≤ n ∧ n ≤ 31 ∧ (sa.toNat : Int) = n := by
  unfold shamtOperand
  rw [Option.ite_none_right_eq_some, and_assoc, Option.some_inj]
  exact and_congr_right fun h0 => and_congr_right fun h1 => by rw [ofInt_eq_iff_toNat]; omega

theorem branchOperand_eq_some (pc : Word) (label : Int) (imm : Imm16) :
    branchOperand pc label = some imm ↔
      0 ≤ label ∧ label < 2 ^ 32 ∧ label - (pc + 4).toNat = imm.toInt * 4 := by
  unfold branchOperand
  have hlt := imm.toInt_lt
  have hle := imm.le_toInt
  rw [Option.ite_none_right_eq_some, Option.some_inj]
  constructor
  · rintro ⟨⟨h0, h1, hd, hl, hu⟩, h⟩
    have := (ofInt_eq_iff_toInt (by omega) (by omega) imm).mp h
    omega
  · rintro ⟨h0, h1, hd⟩
    refine ⟨by omega, (ofInt_eq_iff_toInt (by omega) (by omega) imm).mpr (by omega)⟩

theorem jumpOperand_eq_some (pc : Word) (label : Int) (target : Target26) :
    jumpOperand pc label = some target ↔ 0 ≤ label ∧ label < 2 ^ 32 ∧ label = (jumpTarget pc target).toNat := by
  have htarget := target.isLt
  rw [toNat_jumpTarget, jumpOperand, Option.ite_none_right_eq_some, Option.some_inj, ofInt_eq_iff_toNat]
  omega

/-- The address a label names is in the range of addresses, so only its distance decides. -/
theorem branchOperand_isSome (pc label : Word) : (branchOperand pc (label.toNat : Int)).isSome =
    decide (((label.toNat : Int) - (pc + 4).toNat) % 4 = 0 ∧ -131072 ≤ (label.toNat : Int) - (pc + 4).toNat ∧
      (label.toNat : Int) - (pc + 4).toNat ≤ 131068) := by
  have hlabel := label.isLt
  rw [Bool.eq_iff_iff, decide_eq_true_iff, branchOperand, Option.isSome_ite]
  omega

theorem jumpOperand_isSome (pc label : Word) : (jumpOperand pc (label.toNat : Int)).isSome =
    decide (label.toNat % 4 = 0 ∧ label.toNat / 2 ^ 28 = (pc + 4).toNat / 2 ^ 28) := by
  have hlabel := label.isLt
  rw [Bool.eq_iff_iff, decide_eq_true_iff, jumpOperand, Option.isSome_ite]
  omega

theorem branchTarget_of_branchOperand {pc label : Word} {imm : Imm16}
    (h : branchOperand pc (label.toNat : Int) = some imm) : branchTarget pc imm = label := by
  obtain ⟨-, -, hd⟩ := (branchOperand_eq_some ..).mp h
  have ht := toNat_branchTarget pc imm
  have hlabel := label.isLt
  exact BitVec.eq_of_toNat_eq (by omega)

theorem jumpTarget_of_jumpOperand {pc label : Word} {target : Target26}
    (h : jumpOperand pc (label.toNat : Int) = some target) : jumpTarget pc target = label := by
  obtain ⟨-, -, ht⟩ := (jumpOperand_eq_some ..).mp h
  exact BitVec.eq_of_toNat_eq (by omega)

/-- Settles O16: what each operand accepts and stores, and the targets of the labels. -/
theorem assembledOperandsMeanTheSource : Obligations.AssembledOperandsMeanTheSource := by
  refine ⟨fun n imm => ?_, fun n imm => ?_, shamtOperand_eq_some, branchOperand_isSome,
    fun _ _ _ => branchTarget_of_branchOperand, jumpOperand_isSome, fun _ _ _ => jumpTarget_of_jumpOperand⟩
  · rw [toNat_zeroImm]; exact unsignedOperand_eq_some n imm
  · rw [toInt_signImm]; exact signedOperand_eq_some n imm

/-! The operands of a source line, in the order written (30_encoding.md R79) -/

@[simp] theorem regOperand_val (r : RegIdx) : regOperand (r.val : Int) = some r := by
  have hr := r.isLt
  simp [regOperand, hr]

@[simp] theorem unsignedOperand_toNat (imm : Imm16) : unsignedOperand (imm.toNat : Int) = some imm := by
  have hlt := imm.isLt
  exact (unsignedOperand_eq_some ..).mpr (by omega)

@[simp] theorem signedOperand_toInt (imm : Imm16) : signedOperand imm.toInt = some imm := by
  have hlt := imm.toInt_lt
  have hle := imm.le_toInt
  exact (signedOperand_eq_some ..).mpr (by omega)

@[simp] theorem shamtOperand_toNat (sa : Shamt) : shamtOperand (sa.toNat : Int) = some sa := by
  have hlt := sa.isLt
  exact (shamtOperand_eq_some ..).mpr (by omega)

theorem threeRegOperands_val (mk : RegIdx → RegIdx → RegIdx → Instr) (a b c : RegIdx) :
    threeRegOperands mk a.val b.val c.val = some (mk a b c) := by simp [threeRegOperands]

theorem shiftOperands_val (mk : RegIdx → RegIdx → Shamt → Instr) (rd rt : RegIdx) (sa : Shamt) :
    shiftOperands mk rd.val rt.val sa.toNat = some (mk rd rt sa) := by simp [shiftOperands]

theorem logicalOperands_val (mk : RegIdx → RegIdx → Imm16 → Instr) (rt rs : RegIdx) (imm : Imm16) :
    logicalOperands mk rt.val rs.val imm.toNat = some (mk rt rs imm) := by simp [logicalOperands]

theorem signedOperands_val (mk : RegIdx → RegIdx → Imm16 → Instr) (rt rs : RegIdx) (imm : Imm16) :
    signedOperands mk rt.val rs.val imm.toInt = some (mk rt rs imm) := by simp [signedOperands]

/-- Settles O17: each source line reads its operands by one of the shapes above. -/
theorem operandsAreWrittenInThisOrder : Obligations.OperandsAreWrittenInThisOrder := by
  refine ⟨fun pc rt imm => ?_, fun pc rt rs imm => ?_, fun pc rd rs rt => ?_, fun pc rd rt sa => ?_, fun pc rd rt rs => ?_,
    fun pc rt rs imm => ?_, fun pc label target h => ?_, fun pc rs rt label imm h => ?_⟩
  · simp [SourceLine.assemble]
  · exact ⟨logicalOperands_val .., logicalOperands_val .., logicalOperands_val .., signedOperands_val ..⟩
  · refine ⟨?_, ?_, ?_, ?_, ?_, ?_, ?_, ?_⟩ <;> exact threeRegOperands_val ..
  · exact ⟨shiftOperands_val .., shiftOperands_val .., shiftOperands_val ..⟩
  · exact ⟨threeRegOperands_val .., threeRegOperands_val .., threeRegOperands_val ..⟩
  · refine ⟨?_, ?_, ?_, ?_, ?_, ?_, ?_, ?_⟩ <;> exact signedOperands_val ..
  · simp [SourceLine.assemble, h]
  · simp [SourceLine.assemble, h]

/-! The values of the pseudo-instructions (30_encoding.md R81): a word from its halves -/

theorem toNat_low (v : Word) : (v.extractLsb' 0 16).toNat = v.toNat % 2 ^ 16 := BitVec.extractLsb'_toNat 0 16 v

theorem toInt_low (v : Word) : (v.extractLsb' 0 16).toInt = (v.toNat : Int).bmod (2 ^ 16) := by
  rw [BitVec.toInt_eq_toNat_bmod, toNat_low, Int.natCast_mod, Int.emod_bmod]

theorem signImm_low {v : Word} (hl : -32768 ≤ v.toInt) (hu : v.toInt ≤ 32767) : signImm (v.extractLsb' 0 16) = v := by
  refine BitVec.eq_of_toInt_eq ?_
  have hv := toNat_eq_toInt_emod v
  rw [toInt_signImm, toInt_low, Int.bmod_def]
  omega

theorem zeroImm_low {v : Word} (h : v.toNat < 2 ^ 16) : zeroImm (v.extractLsb' 0 16) = v := by
  refine BitVec.eq_of_toNat_eq ?_
  rw [toNat_zeroImm, toNat_low, Nat.mod_eq_of_lt h]

theorem upperImm_high_or_zeroImm_low (v : Word) :
    upperImm (v.extractLsb' 16 16) ||| zeroImm (v.extractLsb' 0 16) = v := by
  have hzero : zeroImm (v.extractLsb' 0 16) = 0#16 ++ v.extractLsb' 0 16 := BitVec.setWidth_eq_append (by decide)
  have hor := BitVec.or_append (x₁ := v.extractLsb' 16 16) (x₂ := 0#16) (y₁ := 0#16) (y₂ := v.extractLsb' 0 16)
  rw [BitVec.or_zero, BitVec.zero_or] at hor
  rw [hzero]
  exact hor.trans ((join_fields v rfl).trans BitVec.extractLsb'_eq_self)

/-- LUI alone is enough when the low half is 0. -/
theorem upperImm_high {v : Word} (h : v.extractLsb' 0 16 = 0#16) : upperImm (v.extractLsb' 16 16) = v := by
  have hv := upperImm_high_or_zeroImm_low v
  rw [h] at hv
  exact BitVec.or_zero.symm.trans hv

/-- The 0x8000 in `%hi` makes up for the sign of `%lo`. -/
theorem upperImm_hiPart_add_signImm_loPart (v : Word) : upperImm (hiPart v) + signImm (loPart v) = v := by
  refine BitVec.eq_of_toNat_eq ?_
  have hadd := toNat_add_eq_toInt_emod (upperImm (hiPart v)) (signImm (loPart v))
  have hhi : (hiPart v).toNat = (v + 0x8000).toNat / 2 ^ 16 % 2 ^ 16 := by
    rw [hiPart, BitVec.extractLsb'_toNat, Nat.shiftRight_eq_div_pow]
  have hsum : (v + 0x8000).toNat = (v.toNat + 0x8000) % 2 ^ 32 := BitVec.toNat_add v 0x8000
  have hlo : (loPart v).toInt = (v.toNat : Int).bmod (2 ^ 16) := toInt_low v
  rw [Int.bmod_def] at hlo
  rw [toNat_upperImm, toInt_signImm] at hadd
  have hv := v.isLt
  omega

/-! Running the expansions -/

/-- All that an expansion run out of a delay slot changes: one register, and `pc` by the expansion's length `n`. -/
def WritesAndAdvances (s t : State) (r : RegIdx) (v n : Word) : Prop :=
  OnlyRegister s t r v ∧ SameMemory s t ∧ SameInstance s t ∧ t.control = .normal ∧ t.pc = s.pc + n

section
variable {s t u : State} {r : RegIdx} {v : Word}

theorem WritesRegister.writesAndAdvances (h : WritesRegister s t r v) (hc : s.control = .normal) :
    WritesAndAdvances s t r v 4 := by
  obtain ⟨hreg, hmem, hinst, hadv⟩ := h
  simp only [AdvancesPast, hc] at hadv
  obtain ⟨hpc, hct⟩ := hadv
  exact ⟨hreg, hmem, hinst, hct, hpc⟩

/-- A second write of the same register hides the first. -/
theorem WritesAndAdvances.trans {a b m n : Word} (h : WritesAndAdvances s t r a m) (k : WritesAndAdvances t u r b n) :
    WritesAndAdvances s u r b (m + n) := by
  obtain ⟨hreg, hmem, ⟨hcfg, hst⟩, -, hpc⟩ := h
  obtain ⟨kreg, kmem, ⟨kcfg, kst⟩, kct, kpc⟩ := k
  refine ⟨fun q => ?_, fun c => (kmem c).trans (hmem c), ⟨kcfg.trans hcfg, kst.trans hst⟩, kct, ?_⟩
  · rw [kreg q, hreg q]; split <;> rfl
  · rw [kpc, hpc, BitVec.add_assoc]

/-- The value matters only for a register that is not register 0. -/
theorem WritesAndAdvances.congr_value {a n : Word} (h : WritesAndAdvances s t r a n) (ha : r ≠ 0 → a = v) :
    WritesAndAdvances s t r v n := by
  obtain ⟨hreg, hrest⟩ := h
  refine ⟨fun q => (hreg q).trans ?_, hrest⟩
  split
  · next hq => exact ha hq.2
  · rfl

theorem execAll_cons {i : Instr} (is : List Instr) (h : exec i s = .next t) : execAll (i :: is) s = execAll is t := by
  simp only [execAll, h]

theorem execAll_writes {i : Instr} (hi : exec i s = .next (s.commit (.writes r v))) (hc : s.control = .normal) :
    ∃ t, execAll [i] s = .next t ∧ WritesAndAdvances s t r v 4 :=
  ⟨_, execAll_cons [] hi, (State.writesRegister s r v).writesAndAdvances hc⟩

/-- LUI and an instruction `i` that adds the low half by `f` load the value the two make. -/
theorem execAll_lui_then {i : Instr} {f : Word → Word} {hi : Imm16}
    (hx : ∀ s : State, exec i s = .next (s.commit (.writes r (f (s.reg r))))) (hv : f (upperImm hi) = v)
    (hc : s.control = .normal) : ∃ t, execAll [.lui r hi, i] s = .next t ∧ WritesAndAdvances s t r v 8 := by
  obtain ⟨t, hlui, hst⟩ : ∃ t, exec (.lui r hi) s = .next t ∧ WritesAndAdvances s t r (upperImm hi) 4 :=
    ⟨_, rfl, (State.writesRegister s r _).writesAndAdvances hc⟩
  have ⟨htreg, _, _, htc, _⟩ := hst
  have htu := (State.writesRegister t r (f (t.reg r))).writesAndAdvances htc
  refine ⟨_, (execAll_cons [i] hlui).trans (execAll_cons [] (hx t)), (hst.trans htu).congr_value fun hr => ?_⟩
  rw [htreg r, if_pos ⟨rfl, hr⟩, hv]

end

/-- The expansion of `li` is one instruction that writes the value, or LUI and ORI. -/
theorem loadImmediate_cases (rt : RegIdx) (v : Word) :
    (∃ i, loadImmediate rt v = [i] ∧ ∀ s, exec i s = .next (s.commit (.writes rt v))) ∨
      loadImmediate rt v = loadAddressByOri rt v := by
  unfold loadImmediate
  split_ifs with hsigned hunsigned hlow
  · refine .inl ⟨_, rfl, fun s => ?_⟩
    have hx : exec (.addiu rt 0 (v.extractLsb' 0 16)) s =
      .next (s.commit (.writes rt (s.reg 0 + signImm (v.extractLsb' 0 16)))) := rfl
    rw [hx, State.reg_zero, signImm_low hsigned.1 hsigned.2, zero_add]
  · refine .inl ⟨_, rfl, fun s => ?_⟩
    have hx : exec (.ori rt 0 (v.extractLsb' 0 16)) s =
      .next (s.commit (.writes rt (s.reg 0 ||| zeroImm (v.extractLsb' 0 16)))) := rfl
    rw [hx, State.reg_zero, zeroImm_low hunsigned, show 0 ||| v = v from BitVec.zero_or]
  · refine .inl ⟨_, rfl, fun s => ?_⟩
    have hx : exec (.lui rt (v.extractLsb' 16 16)) s =
      .next (s.commit (.writes rt (upperImm (v.extractLsb' 16 16)))) := rfl
    rw [hx, upperImm_high hlow]
  · exact .inr rfl

theorem execAll_loadAddress {s : State} (hc : s.control = .normal) (rt : RegIdx) (v : Word) :
    ∃ t, execAll (loadAddress rt v) s = .next t ∧ WritesAndAdvances s t rt v 8 :=
  execAll_lui_then (f := (· + signImm (loPart v))) (fun _ => rfl) (upperImm_hiPart_add_signImm_loPart v) hc

theorem execAll_loadAddressByOri {s : State} (hc : s.control = .normal) (rt : RegIdx) (v : Word) :
    ∃ t, execAll (loadAddressByOri rt v) s = .next t ∧ WritesAndAdvances s t rt v 8 :=
  execAll_lui_then (f := (· ||| zeroImm (loPart v))) (fun _ => rfl) (upperImm_high_or_zeroImm_low v) hc

theorem execAll_loadImmediate {s : State} (hc : s.control = .normal) (rt : RegIdx) (v : Word) :
    ∃ t, execAll (loadImmediate rt v) s = .next t ∧
      WritesAndAdvances s t rt v (BitVec.ofNat 32 (4 * (loadImmediate rt v).length)) := by
  rcases loadImmediate_cases rt v with ⟨i, hl, hi⟩ | hl
  · rw [hl]; exact execAll_writes (hi s) hc
  · rw [hl]; exact execAll_loadAddressByOri hc rt v

/-- Out of a delay slot a J or BEQ advances with the branch it takes. -/
theorem exec_transfer_normal {s : State} {i : Instr} (ht : isTransfer i = true) (hc : s.control = .normal) :
    exec i s = .next (s.advance (takenTarget s i)) := by
  have hslot : ¬ (s.inDelaySlot = true ∧ s.config.branchPolicy = .reject) := by simp [State.inDelaySlot, hc]
  rw [exec_transfer ht, State.transfer_allowed _ hslot]
  rfl

theorem exec_beq_taken {s : State} {rs rt : RegIdx} (hc : s.control = .normal) (h : s.reg rs = s.reg rt) (imm : Imm16) :
    ∃ t p, exec (.beq rs rt imm) s = .next t ∧ OnlyControl s t ∧ t.pc = s.pc + 4 ∧ t.control = .delaySlotPending p ∧
      (p.toNat : Int) = (s.pc.toNat + 4 + imm.toInt * 4) % 2 ^ 32 := by
  have htaken : takenTarget s (.beq rs rt imm) = some (branchTarget s.pc imm) := if_pos h
  have hadv := State.advance_normal_some hc (branchTarget s.pc imm)
  refine ⟨_, branchTarget s.pc imm, exec_transfer_normal rfl hc, State.onlyControl _ _, ?_, ?_, ?_⟩
  · rw [htaken, hadv]
  · rw [htaken, hadv]
  · have hpc := toNat_add_four s.pc
    rw [toNat_branchTarget]
    omega

theorem exec_beq_not_taken {s : State} {rs rt : RegIdx} (hc : s.control = .normal) (h : s.reg rs ≠ s.reg rt) (imm : Imm16) :
    ∃ t, exec (.beq rs rt imm) s = .next t ∧ OnlyControl s t ∧ t.pc = s.pc + 4 ∧ t.control = .normal := by
  have htaken : takenTarget s (.beq rs rt imm) = none := if_neg h
  refine ⟨_, exec_transfer_normal rfl hc, State.onlyControl _ _, ?_, ?_⟩ <;>
    rw [htaken, State.advance_normal_none hc]
  exact hc

/-- `move` by ADDU or by OR commits the source's value, register 0 being 0. -/
theorem exec_move (rd rs : RegIdx) (s : State) :
    exec (moveByAddu rd rs) s = .next (s.commit (.writes rd (s.reg rs))) ∧
      exec (moveByOr rd rs) s = .next (s.commit (.writes rd (s.reg rs))) := by
  have hadd : exec (moveByAddu rd rs) s = .next (s.commit (.writes rd (s.reg rs + s.reg 0))) := rfl
  have hor : exec (moveByOr rd rs) s = .next (s.commit (.writes rd (s.reg rs ||| s.reg 0))) := rfl
  rw [hadd, hor, State.reg_zero]
  exact ⟨by rw [add_zero], by rw [show s.reg rs ||| 0 = s.reg rs from BitVec.or_zero]⟩

/-- Settles O18: each expansion by what its instructions commit, and the values by arithmetic. -/
theorem pseudoInstructionsDoWhatTheySay : Obligations.PseudoInstructionsDoWhatTheySay := by
  refine ⟨fun rt v s hc => execAll_loadImmediate hc rt v, fun rt v i s hl => ?_, fun rt v s hc => ?_, fun rd rs s => ?_,
    fun rd rs s => ⟨_, _, rfl, State.writesRegister s rd (s.reg 0 - s.reg rs), ?_⟩,
    fun rd rs s => ⟨_, _, rfl, State.writesRegister s rd (~~~(s.reg rs ||| s.reg 0)), fun i hi => ?_⟩,
    fun imm s hc => exec_beq_taken hc rfl imm,
    fun rs imm s hc h0 => exec_beq_taken hc (h0.trans s.reg_zero.symm) imm,
    fun rs imm s hc h0 => exec_beq_not_taken hc (fun h => h0 (h.trans s.reg_zero)) imm⟩
  · rcases loadImmediate_cases rt v with ⟨j, hj, hx⟩ | htwo
    · cases hl.symm.trans hj
      exact ⟨_, hx s, State.writesRegister s rt v⟩
    · cases hl.symm.trans htwo
  · obtain ⟨t, ht, treg, tmem, tinst, tct, tpc⟩ := execAll_loadAddress hc rt v
    obtain ⟨u, hu, hur⟩ := execAll_loadAddressByOri hc rt v
    exact ⟨t, u, ht, hu, treg, tmem, tinst, tct, tpc, hur⟩
  · obtain ⟨hadd, hor⟩ := exec_move rd rs s
    exact ⟨_, hadd, hor, State.writesRegister s rd (s.reg rs)⟩
  · rw [State.reg_zero, BitVec.sub_add_cancel]
  · simp [hi]

end Sys2Proof.Machine
end

section
/-! The statements of 40_alu_immediate.md: the words of each instruction, by the opcode table's row, and the value it commits. -/

namespace Sys2Proof.Machine

/-! The words of an instruction (30_encoding.md R69, R71) -/

/-- A row's mask and match pick out the words that decode to what `mk` makes of them, when `mk` makes instructions of the row's
name only and reads each of these back off its own word. -/
theorem encodedBy_row {m : Mnemonic} {mk : Word → Instr} (hname : ∀ w, (mk w).mnemonic = m)
    (hread : ∀ i, i.mnemonic = m → mk (encode i) = i) : EncodedBy m.row.mask m.row.pattern mk := by
  intro w
  have hrow : w &&& m.row.mask = m.row.pattern ↔ m.row.admits w = true := beq_iff_eq.symm
  rw [hrow, admits_iff_decode]
  constructor
  · rintro ⟨i, hd, hi⟩
    rw [← encode_of_decode hd, hread i hi, encode_of_decode hd, hd]
  · exact fun hd => ⟨mk w, hd, hname w⟩

/-- The operands of an I-format word are the fields it was made of. -/
theorem ofRtRsImm_encodeI (mk : RegIdx → RegIdx → Imm16 → Instr) (op : BitVec 6) (rt rs : RegIdx) (imm : Imm16) :
    ofRtRsImm mk (encodeI op (fieldOf rs) (fieldOf rt) imm) = mk rt rs imm := by
  have hfields : ∀ w, ofRtRsImm mk w = mk (regOf (rtField w)) (regOf (rsField w)) (immField w) := fun _ => rfl
  rw [hfields, rtField_encodeI, rsField_encodeI, immField_encodeI, regOf_fieldOf, regOf_fieldOf]

theorem encodedBy_lui :
    EncodedBy 0xFFE00000 0x3C000000 (fun w => .lui (regOf (w.extractLsb' 16 5)) (w.extractLsb' 0 16)) :=
  encodedBy_row (m := .lui) (fun _ => rfl) fun | .lui rt imm, _ => ofRtRsImm_encodeI (fun rt _ imm => .lui rt imm) _ rt 0 imm

theorem encodedBy_ori : EncodedBy 0xFC000000 0x34000000 (ofRtRsImm .ori) :=
  encodedBy_row (m := .ori) (fun _ => rfl) fun | .ori .., _ => ofRtRsImm_encodeI ..

theorem encodedBy_andi : EncodedBy 0xFC000000 0x30000000 (ofRtRsImm .andi) :=
  encodedBy_row (m := .andi) (fun _ => rfl) fun | .andi .., _ => ofRtRsImm_encodeI ..

theorem encodedBy_xori : EncodedBy 0xFC000000 0x38000000 (ofRtRsImm .xori) :=
  encodedBy_row (m := .xori) (fun _ => rfl) fun | .xori .., _ => ofRtRsImm_encodeI ..

theorem encodedBy_addiu : EncodedBy 0xFC000000 0x24000000 (ofRtRsImm .addiu) :=
  encodedBy_row (m := .addiu) (fun _ => rfl) fun | .addiu .., _ => ofRtRsImm_encodeI ..

/-! The values written (40_alu_immediate.md R91 to R95) -/

/-- The bits of a zero-extended immediate are its own, and 0 above them. -/
theorem getLsbD_zeroImm (imm : Imm16) {i : Nat} (hi : i < 32) :
    (zeroImm imm).getLsbD i = (decide (i < 16) && imm.getLsbD i) := by
  rw [zeroImm, BitVec.getLsbD_setWidth, decide_eq_true hi, Bool.true_and]
  by_cases h : i < 16
  · rw [decide_eq_true h, Bool.true_and]
  · rw [decide_eq_false h, Bool.false_and, BitVec.getLsbD_of_ge imm i (Nat.le_of_not_lt h)]

/-- Settles O19: LUI commits its immediate in the upper half. -/
theorem luiLoadsTheUpperHalf : Obligations.LuiLoadsTheUpperHalf := by
  refine ⟨encodedBy_lui, fun rt imm s => ⟨_, upperImm imm, rfl, State.writesRegister s rt _, toNat_upperImm imm, ?_⟩⟩
  rw [toNat_upperImm, Nat.mul_mod_left]

/-- Settles O20: each commits a bitwise result, read bit by bit off the register and the zero-extended immediate. -/
theorem logicalImmediates : Obligations.LogicalImmediates := by
  refine ⟨encodedBy_ori, encodedBy_andi, encodedBy_xori,
    fun rt rs imm s => ⟨_, s.reg rs ||| zeroImm imm, rfl, State.writesRegister s rt _, fun i hi => ?_⟩,
    fun rt rs imm s => ⟨_, s.reg rs &&& zeroImm imm, rfl, State.writesRegister s rt _, fun i hi => ?_⟩,
    fun rt rs imm s => ⟨_, s.reg rs ^^^ zeroImm imm, rfl, State.writesRegister s rt _, fun i hi => ?_⟩⟩
  · rw [BitVec.getLsbD_or, getLsbD_zeroImm imm hi]
  · rw [BitVec.getLsbD_and, getLsbD_zeroImm imm hi]
  · rw [BitVec.getLsbD_xor, getLsbD_zeroImm imm hi]

/-- Settles O21: ADDIU commits the wrapping sum with the sign-extended immediate. -/
theorem addiuAddsModulo : Obligations.AddiuAddsModulo := by
  refine ⟨encodedBy_addiu, fun rt rs imm s => ⟨_, s.reg rs + signImm imm, rfl, State.writesRegister s rt _, ?_⟩⟩
  rw [toNat_add_eq_toInt_emod, toInt_signImm]

end Sys2Proof.Machine
end

section
/-! The statements of 41_alu_register.md: the words of each instruction, by the opcode table's row, and the value it commits. -/

namespace Sys2Proof.Machine

/-! The words of an instruction (30_encoding.md R69, R71) -/

/-- The operands of a three-register word are the fields it was made of. -/
theorem ofRdRsRt_encodeR (mk : RegIdx → RegIdx → RegIdx → Instr) (rd rs rt : RegIdx) (sa : Shamt) (fn : BitVec 6) :
    ofRdRsRt mk (encodeR (fieldOf rs) (fieldOf rt) (fieldOf rd) sa fn) = mk rd rs rt := by
  have hfields : ∀ w, ofRdRsRt mk w = mk (regOf (rdField w)) (regOf (rsField w)) (regOf (rtField w)) := fun _ => rfl
  rw [hfields, rdField_encodeR, rsField_encodeR, rtField_encodeR, regOf_fieldOf, regOf_fieldOf, regOf_fieldOf]

theorem encodedBy_addu : EncodedBy 0xFC0007FF 0x00000021 (ofRdRsRt .addu) :=
  encodedBy_row (m := .addu) (fun _ => rfl) fun | .addu .., _ => ofRdRsRt_encodeR ..

theorem encodedBy_subu : EncodedBy 0xFC0007FF 0x00000023 (ofRdRsRt .subu) :=
  encodedBy_row (m := .subu) (fun _ => rfl) fun | .subu .., _ => ofRdRsRt_encodeR ..

theorem encodedBy_and : EncodedBy 0xFC0007FF 0x00000024 (ofRdRsRt .and) :=
  encodedBy_row (m := .and) (fun _ => rfl) fun | .and .., _ => ofRdRsRt_encodeR ..

theorem encodedBy_or : EncodedBy 0xFC0007FF 0x00000025 (ofRdRsRt .or) :=
  encodedBy_row (m := .or) (fun _ => rfl) fun | .or .., _ => ofRdRsRt_encodeR ..

theorem encodedBy_xor : EncodedBy 0xFC0007FF 0x00000026 (ofRdRsRt .xor) :=
  encodedBy_row (m := .xor) (fun _ => rfl) fun | .xor .., _ => ofRdRsRt_encodeR ..

theorem encodedBy_nor : EncodedBy 0xFC0007FF 0x00000027 (ofRdRsRt .nor) :=
  encodedBy_row (m := .nor) (fun _ => rfl) fun | .nor .., _ => ofRdRsRt_encodeR ..

theorem encodedBy_slt : EncodedBy 0xFC0007FF 0x0000002A (ofRdRsRt .slt) :=
  encodedBy_row (m := .slt) (fun _ => rfl) fun | .slt .., _ => ofRdRsRt_encodeR ..

theorem encodedBy_sltu : EncodedBy 0xFC0007FF 0x0000002B (ofRdRsRt .sltu) :=
  encodedBy_row (m := .sltu) (fun _ => rfl) fun | .sltu .., _ => ofRdRsRt_encodeR ..

/-! The values written (41_alu_register.md R101 to R108) -/

/-- The difference of two words, modulo 2^32. -/
theorem toNat_sub_eq_emod (a b : Word) : ((a - b).toNat : Int) = (a.toNat - b.toNat : Int) % 2 ^ 32 := by
  have hb := b.isLt
  rw [BitVec.toNat_sub]
  omega

/-- The bits of NOR's result: all 32 are inside the word, so each is the complement of the OR's. -/
theorem getLsbD_not_or (a b : Word) {i : Nat} (hi : i < 32) :
    (~~~(a ||| b)).getLsbD i = !(a.getLsbD i || b.getLsbD i) := by
  rw [BitVec.getLsbD_not, decide_eq_true hi, Bool.true_and, BitVec.getLsbD_or]

/-- A comparison's result is 1 or 0 as the proposition it decides is true or false. -/
theorem flagWord_decide (p : Prop) [Decidable p] : flagWord (decide p) = if p then 1 else 0 := by
  by_cases h : p
  · rw [decide_eq_true h, if_pos h]; rfl
  · rw [decide_eq_false h, if_neg h]; rfl

/-- Settles O22: ADDU commits the wrapping sum and SUBU the wrapping difference of the two registers. -/
theorem adduAndSubuWrap : Obligations.AdduAndSubuWrap :=
  ⟨encodedBy_addu, encodedBy_subu,
    fun rd rs rt s => ⟨_, s.reg rs + s.reg rt, rfl, State.writesRegister s rd _, BitVec.toNat_add ..⟩,
    fun rd rs rt s => ⟨_, s.reg rs - s.reg rt, rfl, State.writesRegister s rd _, toNat_sub_eq_emod ..⟩⟩

/-- Settles O23: each commits a bitwise result, read bit by bit off the two registers. -/
theorem registerLogic : Obligations.RegisterLogic :=
  ⟨encodedBy_and, encodedBy_or, encodedBy_xor, encodedBy_nor,
    fun rd rs rt s => ⟨_, s.reg rs &&& s.reg rt, rfl, State.writesRegister s rd _, fun _ _ => BitVec.getLsbD_and⟩,
    fun rd rs rt s => ⟨_, s.reg rs ||| s.reg rt, rfl, State.writesRegister s rd _, fun _ _ => BitVec.getLsbD_or⟩,
    fun rd rs rt s => ⟨_, s.reg rs ^^^ s.reg rt, rfl, State.writesRegister s rd _, fun _ _ => BitVec.getLsbD_xor⟩,
    fun rd rs rt s => ⟨_, ~~~(s.reg rs ||| s.reg rt), rfl, State.writesRegister s rd _, fun _ => getLsbD_not_or _ _⟩⟩

/-- Settles O24: SLT commits the signed comparison of the two registers and SLTU the unsigned one, each as 1 or 0. -/
theorem setOnLessThan : Obligations.SetOnLessThan := by
  refine ⟨encodedBy_slt, encodedBy_sltu, fun rd rs rt s => ⟨_, rfl, ?_⟩, fun rd rs rt s => ⟨_, rfl, ?_⟩⟩
  · rw [← flagWord_decide]; exact State.writesRegister s rd (flagWord (signedLess ..))
  · rw [← flagWord_decide]; exact State.writesRegister s rd (flagWord (unsignedLess ..))

end Sys2Proof.Machine
end

section
/-! The statements of 42_shifts.md: the words of each instruction, by the opcode table's row, and the value it commits. -/

namespace Sys2Proof.Machine

/-! The words of an instruction (30_encoding.md R69, R71) -/

/-- The operands of an immediate shift's word are the fields it was made of. -/
theorem ofRdRtShamt_encodeR (mk : RegIdx → RegIdx → Shamt → Instr) (rs : BitVec 5) (rd rt : RegIdx) (sa : Shamt)
    (fn : BitVec 6) : ofRdRtShamt mk (encodeR rs (fieldOf rt) (fieldOf rd) sa fn) = mk rd rt sa := by
  have hfields : ∀ w, ofRdRtShamt mk w = mk (regOf (rdField w)) (regOf (rtField w)) (shamtField w) := fun _ => rfl
  rw [hfields, rdField_encodeR, rtField_encodeR, shamtField_encodeR, regOf_fieldOf, regOf_fieldOf]

/-- A variable shift's word is a three-register word whose instruction names `rt` before `rs`. -/
theorem ofRdRtRs_encodeR (mk : RegIdx → RegIdx → RegIdx → Instr) (rd rt rs : RegIdx) (sa : Shamt) (fn : BitVec 6) :
    ofRdRtRs mk (encodeR (fieldOf rs) (fieldOf rt) (fieldOf rd) sa fn) = mk rd rt rs :=
  ofRdRsRt_encodeR (fun rd rs rt => mk rd rt rs) rd rs rt sa fn

theorem encodedBy_sll : EncodedBy 0xFFE0003F 0x00000000 (ofRdRtShamt .sll) :=
  encodedBy_row (m := .sll) (fun _ => rfl) fun | .sll .., _ => ofRdRtShamt_encodeR ..

theorem encodedBy_srl : EncodedBy 0xFFE0003F 0x00000002 (ofRdRtShamt .srl) :=
  encodedBy_row (m := .srl) (fun _ => rfl) fun | .srl .., _ => ofRdRtShamt_encodeR ..

theorem encodedBy_sra : EncodedBy 0xFFE0003F 0x00000003 (ofRdRtShamt .sra) :=
  encodedBy_row (m := .sra) (fun _ => rfl) fun | .sra .., _ => ofRdRtShamt_encodeR ..

theorem encodedBy_sllv : EncodedBy 0xFC0007FF 0x00000004 (ofRdRtRs .sllv) :=
  encodedBy_row (m := .sllv) (fun _ => rfl) fun | .sllv .., _ => ofRdRtRs_encodeR ..

theorem encodedBy_srlv : EncodedBy 0xFC0007FF 0x00000006 (ofRdRtRs .srlv) :=
  encodedBy_row (m := .srlv) (fun _ => rfl) fun | .srlv .., _ => ofRdRtRs_encodeR ..

theorem encodedBy_srav : EncodedBy 0xFC0007FF 0x00000007 (ofRdRtRs .srav) :=
  encodedBy_row (m := .srav) (fun _ => rfl) fun | .srav .., _ => ofRdRtRs_encodeR ..

/-! The values written (42_shifts.md R114 to R120) -/

theorem toNat_shiftLeft_eq_mul (v : Word) (n : Nat) : (v <<< n).toNat = v.toNat * 2 ^ n % 2 ^ 32 := by
  rw [BitVec.toNat_shiftLeft, Nat.shiftLeft_eq]

theorem toNat_ushiftRight_eq_div (v : Word) (n : Nat) : (v >>> n).toNat = v.toNat / 2 ^ n := by
  rw [BitVec.toNat_ushiftRight, Nat.shiftRight_eq_div_pow]

/-- Division by a positive power of two rounds toward minus infinity, as the arithmetic shift does. -/
theorem toInt_sshiftRight_eq_div (v : Word) (n : Nat) : (v.sshiftRight n).toInt = v.toInt / 2 ^ n := by
  rw [BitVec.toInt_sshiftRight, Int.shiftRight_eq_div_pow, Nat.cast_pow, Nat.cast_ofNat]

/-- A variable shift's amount is `x[rs]` modulo 32. -/
theorem toNat_shiftAmount (v : Word) : (shiftAmount v).toNat = v.toNat % 32 := BitVec.extractLsb'_toNat 0 5 v

/-- Settles O25: each commits its shift of `x[rt]` by `shamt`, read as a product or a quotient by the power of two. -/
theorem immediateShifts : Obligations.ImmediateShifts :=
  ⟨encodedBy_sll, encodedBy_srl, encodedBy_sra,
    fun rd rt sa s => ⟨_, s.reg rt <<< sa.toNat, rfl, State.writesRegister s rd _, toNat_shiftLeft_eq_mul ..⟩,
    fun rd rt sa s => ⟨_, s.reg rt >>> sa.toNat, rfl, State.writesRegister s rd _, toNat_ushiftRight_eq_div ..⟩,
    fun rd rt sa s => ⟨_, (s.reg rt).sshiftRight sa.toNat, rfl, State.writesRegister s rd _, toInt_sshiftRight_eq_div ..⟩⟩

/-- Settles O26: each commits its shift of `x[rt]` as O25's, the amount being `x[rs]` modulo 32. -/
theorem variableShifts : Obligations.VariableShifts := by
  refine ⟨encodedBy_sllv, encodedBy_srlv, encodedBy_srav,
    fun rd rt rs s => ⟨_, s.reg rt <<< (shiftAmount (s.reg rs)).toNat, rfl, State.writesRegister s rd _, ?_⟩,
    fun rd rt rs s => ⟨_, s.reg rt >>> (shiftAmount (s.reg rs)).toNat, rfl, State.writesRegister s rd _, ?_⟩,
    fun rd rt rs s => ⟨_, (s.reg rt).sshiftRight (shiftAmount (s.reg rs)).toNat, rfl, State.writesRegister s rd _, ?_⟩⟩
  · rw [toNat_shiftLeft_eq_mul, toNat_shiftAmount]
  · rw [toNat_ushiftRight_eq_div, toNat_shiftAmount]
  · rw [toInt_sshiftRight_eq_div, toNat_shiftAmount]

end Sys2Proof.Machine
end

section
/-! The statements of 43_load_store.md: the words of each load and store, the bytes a store leaves, the value a load commits, and
what a load reads after a store or beside the other extension. -/

namespace Sys2Proof.Machine

/-! The words of an instruction (30_encoding.md R69, R71) -/

theorem encodedBy_sb : EncodedBy 0xFC000000 0xA0000000 (ofRtRsImm .sb) :=
  encodedBy_row (m := .sb) (fun _ => rfl) fun | .sb .., _ => ofRtRsImm_encodeI ..

theorem encodedBy_sh : EncodedBy 0xFC000000 0xA4000000 (ofRtRsImm .sh) :=
  encodedBy_row (m := .sh) (fun _ => rfl) fun | .sh .., _ => ofRtRsImm_encodeI ..

theorem encodedBy_sw : EncodedBy 0xFC000000 0xAC000000 (ofRtRsImm .sw) :=
  encodedBy_row (m := .sw) (fun _ => rfl) fun | .sw .., _ => ofRtRsImm_encodeI ..

theorem encodedBy_lb : EncodedBy 0xFC000000 0x80000000 (ofRtRsImm .lb) :=
  encodedBy_row (m := .lb) (fun _ => rfl) fun | .lb .., _ => ofRtRsImm_encodeI ..

theorem encodedBy_lbu : EncodedBy 0xFC000000 0x90000000 (ofRtRsImm .lbu) :=
  encodedBy_row (m := .lbu) (fun _ => rfl) fun | .lbu .., _ => ofRtRsImm_encodeI ..

theorem encodedBy_lh : EncodedBy 0xFC000000 0x84000000 (ofRtRsImm .lh) :=
  encodedBy_row (m := .lh) (fun _ => rfl) fun | .lh .., _ => ofRtRsImm_encodeI ..

theorem encodedBy_lhu : EncodedBy 0xFC000000 0x94000000 (ofRtRsImm .lhu) :=
  encodedBy_row (m := .lhu) (fun _ => rfl) fun | .lhu .., _ => ofRtRsImm_encodeI ..

theorem encodedBy_lw : EncodedBy 0xFC000000 0x8C000000 (ofRtRsImm .lw) :=
  encodedBy_row (m := .lw) (fun _ => rfl) fun | .lw .., _ => ofRtRsImm_encodeI ..

/-! Stores (43_load_store.md R132 to R135) -/

section
variable {s t : State} {w : AccessWidth} {rt rd rs : RegIdx} {imm : Imm16}

/-- A store in bounds completes, and its low bytes in the byte order are all it leaves. -/
theorem State.store_storesBytes (rt : RegIdx) (hwf : s.mem.wf)
    (hb : (s.effectiveAddress rs imm).toNat + w.bytes ≤ s.config.memSize) :
    ∃ t, s.finish (s.store w rt rs imm) = .next t ∧
      StoresBytes s t (s.effectiveAddress rs imm).toNat (bytesOf s.config.byteOrder w.bytes (s.reg rt)) :=
  ⟨_, congrArg s.finish (State.store_inBounds rt hb), State.storesBytes hwf _ w _⟩

/-! Loads (43_load_store.md R131, R136 to R140) -/

theorem exec_lb (hb : (s.effectiveAddress rs imm).toNat + 1 ≤ s.config.memSize) : exec (.lb rt rs imm) s =
    .next (s.commit (.writes rt ((s.mem.read (s.effectiveAddress rs imm).toNat).signExtend 32))) := by
  rw [← signExtendFrom_byte, ← valueOf_byte]
  exact congrArg s.finish (State.load_inBounds _ rt hb)

theorem exec_lbu (hb : (s.effectiveAddress rs imm).toNat + 1 ≤ s.config.memSize) : exec (.lbu rt rs imm) s =
    .next (s.commit (.writes rt ((s.mem.read (s.effectiveAddress rs imm).toNat).setWidth 32))) := by
  rw [← zeroExtendFrom_byte, ← valueOf_byte]
  exact congrArg s.finish (State.load_inBounds _ rt hb)

theorem exec_lh (hb : (s.effectiveAddress rs imm).toNat + 2 ≤ s.config.memSize) : exec (.lh rt rs imm) s =
    .next (s.commit (.writes rt ((halfAt s (s.effectiveAddress rs imm).toNat).signExtend 32))) := by
  rw [← signExtendFrom_half, ← valueOf_half]
  exact congrArg s.finish (State.load_inBounds _ rt hb)

theorem exec_lhu (hb : (s.effectiveAddress rs imm).toNat + 2 ≤ s.config.memSize) : exec (.lhu rt rs imm) s =
    .next (s.commit (.writes rt ((halfAt s (s.effectiveAddress rs imm).toNat).setWidth 32))) := by
  rw [← zeroExtendFrom_half, ← valueOf_half]
  exact congrArg s.finish (State.load_inBounds _ rt hb)

theorem exec_lw (hb : (s.effectiveAddress rs imm).toNat + 4 ≤ s.config.memSize) : exec (.lw rt rs imm) s =
    .next (s.commit (.writes rt (wordAt s (s.effectiveAddress rs imm).toNat))) := by
  rw [← valueOf_word]
  exact congrArg s.finish (State.load_inBounds id rt hb)

/-- A load or store that completes was in bounds. -/
theorem inBounds_of_exec_next {i : Instr} {k : AccessKind} (hd : dataAccess i = some (w, k, rs, imm)) (h : exec i s = .next t) :
    (s.effectiveAddress rs imm).toNat + w.bytes ≤ s.config.memSize := by
  by_contra hb
  rw [exec_access_outOfBounds hd (Nat.lt_of_not_le hb)] at h
  cases h

/-- A register other than 0 reads the value just committed to it. -/
theorem State.reg_commit_writes (s : State) (hr : rt ≠ 0) (v : Word) : (s.commit (.writes rt v)).reg rt = v := by
  obtain ⟨hreg, -⟩ := State.writesRegister s rt v
  rw [hreg, if_pos ⟨rfl, hr⟩]

/-- The destination of an instruction that completes reads the value the instruction commits. -/
theorem reg_of_exec_next {i : Instr} {v : Word} (hr : rt ≠ 0) (hx : exec i s = .next (s.commit (.writes rt v)))
    (h : exec i s = .next t) : t.reg rt = v := by
  rw [hx] at h
  cases h
  exact State.reg_commit_writes s hr v

/-! A load after a store (43_load_store.md R141) -/

/-- The effective address depends on the registers alone. -/
theorem effectiveAddress_of_sameRegisters (h : SameRegisters s t) (rs : RegIdx) (imm : Imm16) :
    t.effectiveAddress rs imm = s.effectiveAddress rs imm := by
  rw [State.effectiveAddress, h, State.effectiveAddress]

/-- The value of the bytes of an access is the low part of the word they were taken from. -/
theorem ofNat_valueOf_bytesOf (o : ByteOrder) (w : AccessWidth) (v : Word) :
    BitVec.ofNat 32 (valueOf o (bytesOf o w.bytes v)) = zeroExtendFrom w v := by
  have hpow : 256 ^ w.bytes = 2 ^ w.bits := (Nat.pow_mul 2 8 w.bytes).symm
  rw [valueOf_bytesOf, hpow, ← BitVec.toNat_setWidth, BitVec.ofNat_toNat]
  rfl

/-- A load of a store's width, base and offset gives the extension of the low part of the word stored. -/
theorem State.load_after_store (ext : Word → Word) (hwf : s.mem.wf) (hrd : rd ≠ 0)
    (h : s.finish (s.store w rt rs imm) = .next t) :
    ∃ u, t.finish (t.load w ext rd rs imm) = .next u ∧ u.reg rd = ext (zeroExtendFrom w (s.reg rt)) := by
  obtain ⟨hb, rfl⟩ := State.store_next h
  obtain ⟨-, hreg, ⟨hcfg, -⟩, -⟩ := State.storesBytes hwf (s.effectiveAddress rs imm) w (s.reg rt)
  have hea := effectiveAddress_of_sameRegisters hreg rs imm
  refine ⟨_, congrArg (State.finish _) (State.load_inBounds ext rd (by rwa [hea, hcfg])), ?_⟩
  rw [State.reg_commit_writes _ hrd, hea, hcfg, State.commit_stores, State.advance_mem, State.readBytes_storeBytes hwf,
    ofNat_valueOf_bytesOf]

end

/-! The low part of a word (20_memory.md R50) -/

theorem zeroExtendFrom_word (v : Word) : zeroExtendFrom .word v = v := (BitVec.setWidth_eq _).trans (BitVec.setWidth_eq v)

theorem AccessWidth.bits_le (w : AccessWidth) : w.bits ≤ 32 := Nat.mul_le_mul_left 8 w.bytes_le_four

theorem toInt_signExtendFrom_zeroExtendFrom (w : AccessWidth) (v : Word) :
    (signExtendFrom w (zeroExtendFrom w v)).toInt = (v.extractLsb' 0 w.bits).toInt := by
  rw [signExtendFrom, zeroExtendFrom, narrow_widen _ w.bits_le, BitVec.toInt_signExtend_of_le w.bits_le,
    BitVec.setWidth_eq_extractLsb' w.bits_le]

theorem toNat_zeroExtendFrom_zeroExtendFrom (w : AccessWidth) (v : Word) :
    (zeroExtendFrom w (zeroExtendFrom w v)).toNat = v.toNat % 2 ^ w.bits := by
  rw [zeroExtendFrom, zeroExtendFrom, narrow_widen _ w.bits_le, BitVec.toNat_setWidth_of_le w.bits_le, BitVec.toNat_setWidth]

/-! The two extensions of a value of `n` bits by `m` bits (43_load_store.md R142) -/

section
variable {n : Nat} (m : Nat) (b : BitVec n)

/-- A signed extension puts copies of the sign bit above the value. -/
theorem signExtend_eq_append : b.signExtend (m + n) = (if b.msb then BitVec.allOnes m else 0#m) ++ b := by
  refine BitVec.eq_of_getLsbD_eq fun i hi => ?_
  rw [BitVec.getLsbD_signExtend, BitVec.getLsbD_append, decide_eq_true hi, Bool.true_and]
  split
  · rfl
  · have him : i - n < m := by omega
    cases b.msb with
    | true => simp [him]
    | false => simp

theorem extractLsb'_low_signExtend : (b.signExtend (m + n)).extractLsb' 0 n = b := by
  rw [signExtend_eq_append, BitVec.extractLsb'_append_eq_right]

theorem extractLsb'_high_signExtend {b : BitVec n} (h : b.msb = true) :
    (b.signExtend (m + n)).extractLsb' n m = BitVec.allOnes m := by
  rw [signExtend_eq_append, if_pos h, BitVec.extractLsb'_append_eq_left]

theorem extractLsb'_low_setWidth : (b.setWidth (m + n)).extractLsb' 0 n = b := by
  rw [BitVec.extractLsb'_setWidth_of_le (by omega), BitVec.extractLsb'_eq_self]

theorem extractLsb'_high_setWidth : (b.setWidth (m + n)).extractLsb' n m = 0#m := by
  refine BitVec.eq_of_toNat_eq ?_
  rw [BitVec.extractLsb'_toNat, BitVec.toNat_setWidth_of_le (by omega), Nat.shiftRight_eq_zero _ _ b.isLt]
  simp

end

/-- Settles O27: each completes with its bytes in the byte order, or raises by the rule of every access out of bounds. -/
theorem storesWriteTheirBytes : Obligations.StoresWriteTheirBytes := by
  refine ⟨encodedBy_sb, encodedBy_sh, encodedBy_sw, fun rt rs imm s hwf hb => ?_, fun rt rs imm s hwf hb => ?_,
    fun rt rs imm s hwf hb => ?_, fun _ _ _ _ hb => exec_access_outOfBounds rfl hb,
    fun _ _ _ _ hb => exec_access_outOfBounds rfl hb, fun _ _ _ _ hb => exec_access_outOfBounds rfl hb⟩
  · rw [← bytesOf_byte s]; exact State.store_storesBytes (w := .byte) rt hwf hb
  · rw [← bytesOf_half s]; exact State.store_storesBytes (w := .half) rt hwf hb
  · rw [← bytesOf_word s]; exact State.store_storesBytes (w := .word) rt hwf hb

/-- Settles O32: each load gives its extension of the low part of the word stored, at the width of the two instructions. -/
theorem storeThenLoadRoundTrip : Obligations.StoreThenLoadRoundTrip := by
  refine ⟨fun rt rs imm rd s t hwf hrd h => ?_, fun rt rs imm rd s t hwf hrd h => ⟨?_, ?_⟩,
    fun rt rs imm rd s t hwf hrd h => ⟨?_, ?_⟩⟩
  · obtain ⟨u, hu, hv⟩ := State.load_after_store (w := .word) id hwf hrd h
    exact ⟨u, hu, hv.trans (zeroExtendFrom_word _)⟩
  · obtain ⟨u, hu, hv⟩ := State.load_after_store (w := .half) (signExtendFrom .half) hwf hrd h
    exact ⟨u, hu, hv ▸ toInt_signExtendFrom_zeroExtendFrom .half _⟩
  · obtain ⟨u, hu, hv⟩ := State.load_after_store (w := .half) (zeroExtendFrom .half) hwf hrd h
    exact ⟨u, hu, hv ▸ toNat_zeroExtendFrom_zeroExtendFrom .half _⟩
  · obtain ⟨u, hu, hv⟩ := State.load_after_store (w := .byte) (signExtendFrom .byte) hwf hrd h
    exact ⟨u, hu, hv ▸ toInt_signExtendFrom_zeroExtendFrom .byte _⟩
  · obtain ⟨u, hu, hv⟩ := State.load_after_store (w := .byte) (zeroExtendFrom .byte) hwf hrd h
    exact ⟨u, hu, hv ▸ toNat_zeroExtendFrom_zeroExtendFrom .byte _⟩

/-- Settles O33: the two destinations hold the two extensions of one value, which differ in the bits above it alone. -/
theorem extensionPairing : Obligations.ExtensionPairing := by
  refine ⟨fun rt rs imm s t u hrt ht hu => ?_, fun rt rs imm s t u hrt ht hu => ?_⟩
  · rw [reg_of_exec_next hrt (exec_lb (inBounds_of_exec_next rfl ht)) ht,
      reg_of_exec_next hrt (exec_lbu (inBounds_of_exec_next rfl hu)) hu]
    exact ⟨extractLsb'_low_signExtend 24 _, extractLsb'_low_setWidth 24 _, extractLsb'_high_setWidth 24 _,
      extractLsb'_high_signExtend 24, BitVec.signExtend_eq_setWidth_of_msb_false⟩
  · rw [reg_of_exec_next hrt (exec_lh (inBounds_of_exec_next rfl ht)) ht,
      reg_of_exec_next hrt (exec_lhu (inBounds_of_exec_next rfl hu)) hu]
    exact ⟨extractLsb'_low_signExtend 16 _, extractLsb'_low_setWidth 16 _, extractLsb'_high_setWidth 16 _,
      extractLsb'_high_signExtend 16, BitVec.signExtend_eq_setWidth_of_msb_false⟩

/-- Settles O28: LB commits the signed and LBU the unsigned extension of the byte. -/
theorem lbAndLbuLoadOneByte : Obligations.LbAndLbuLoadOneByte :=
  ⟨encodedBy_lb, encodedBy_lbu,
    fun rt _ _ s hb => ⟨⟨_, _, exec_lb hb, State.writesRegister s rt _, BitVec.toInt_signExtend_of_le (by decide)⟩,
      ⟨_, _, exec_lbu hb, State.writesRegister s rt _, BitVec.toNat_setWidth_of_le (by decide)⟩⟩,
    fun _ _ _ _ hb => ⟨exec_access_outOfBounds rfl (Nat.lt_succ_of_le hb), exec_access_outOfBounds rfl (Nat.lt_succ_of_le hb)⟩⟩

/-- Settles O29: LH commits the signed and LHU the unsigned extension of the halfword. -/
theorem lhAndLhuLoadTwoBytes : Obligations.LhAndLhuLoadTwoBytes :=
  ⟨encodedBy_lh, encodedBy_lhu,
    fun rt _ _ s hb => ⟨⟨_, _, exec_lh hb, State.writesRegister s rt _, BitVec.toInt_signExtend_of_le (by decide)⟩,
      ⟨_, _, exec_lhu hb, State.writesRegister s rt _, BitVec.toNat_setWidth_of_le (by decide)⟩⟩,
    fun _ _ _ _ hb => ⟨exec_access_outOfBounds rfl hb, exec_access_outOfBounds rfl hb⟩⟩

/-- Settles O30: LW commits the word. -/
theorem lwLoadsFourBytes : Obligations.LwLoadsFourBytes :=
  ⟨encodedBy_lw, fun rt _ _ s hb => ⟨_, exec_lw hb, State.writesRegister s rt _⟩,
    fun _ _ _ _ hb => exec_access_outOfBounds rfl hb⟩

/-- Settles O34: both loads are at 0x101, where the four bytes spell the word and the first two the halfword. -/
theorem misalignedLoads : Obligations.MisalignedLoads := by
  intro s ho hsize hbase h0 h1 h2 h3
  have hea : s.effectiveAddress 1 1 = 0x101 := by rw [State.effectiveAddress, hbase]; rfl
  have hnat : (0x101 : Word).toNat = 0x101 := rfl
  have hword : wordAt s 0x101 = 0xAA1234AB := by simp only [wordAt, ho, h0, h1, h2, h3]; rfl
  have hhalf : halfAt s 0x101 = 0x34AB := by simp only [halfAt, ho, h0, h1]; rfl
  refine ⟨⟨_, (encodedBy_lw 0x8C230001).mp rfl, exec_lw (by rw [hea]; exact hsize), ?_⟩,
    ⟨_, exec_lh (by rw [hea]; exact Nat.le_trans (by decide) hsize), ?_⟩⟩
  · rw [State.reg_commit_writes s (by decide), hea, hnat, hword]
  · rw [State.reg_commit_writes s (by decide), hea, hnat, hhalf]; rfl

end Sys2Proof.Machine
end

section
/-! The statements of 44_control_transfer.md: what a step is, the commit's state machine, the transfers in and out of a delay slot,
and the self-loop. -/

namespace Sys2Proof.Machine

/-! A step of the instruction at `pc` (44_control_transfer.md R154) -/

section
variable {s t : State} {i : Instr}

theorem step_of_exec_next (hs : s.status = .running) (hi : InstructionAtPc s i) (h : exec i s = .next t) : step s = .next t := by
  rw [step_at hs hi, h]; rfl

theorem step_of_exec_fatal {c : Cause} (hs : s.status = .running) (hi : InstructionAtPc s i) (h : exec i s = .fault (.fatal c)) :
    step s = .next (s.takeFatal c (some (wordAt s s.pc.toNat))) := by
  rw [step_at hs hi, h]; rfl

/-- A step that does not stop the core is the effect of the instruction at `pc`. -/
theorem exec_of_step_running (hs : s.status = .running) (hi : InstructionAtPc s i) (h : step s = .next t)
    (ht : t.status = .running) : exec i s = .next t := by
  rcases exec_outcome i s with ⟨e, hx⟩ | ⟨c, hx⟩
  · rw [hx, ← step_of_exec_next hs hi hx, h]
  · cases (step_of_exec_fatal hs hi hx).symm.trans h
    cases ht

theorem step_fetch_outOfBounds (hs : s.status = .running) (hb : s.config.memSize < s.pc.toNat + 4) :
    step s = .next (s.takeFatal (.outOfBoundsAccess s.pc .word .fetch) none) := by
  have hf : s.fetch = .error (.outOfBoundsAccess s.pc .word .fetch) := State.memRead_outOfBounds (w := .word) .fetch hb
  simp only [step, hs, State.fetchDecode, hf]

end

/-- Settles O52: by the two outcomes of the instruction at `pc`. -/
theorem stepRunsTheDecodedInstruction : Obligations.StepRunsTheDecodedInstruction :=
  fun _ _ hs hi => ⟨fun _ => step_of_exec_next hs hi, fun _ => step_of_exec_fatal hs hi⟩

/-! The commit (44_control_transfer.md R157) -/

section
variable {s t : State} {p : Word}

theorem State.pendingTarget_of_normal (h : s.control = .normal) : s.pendingTarget = none := by simp [State.pendingTarget, h]

theorem State.inDelaySlot_of_pending (h : s.control = .delaySlotPending p) : s.inDelaySlot = true := by
  simp [State.inDelaySlot, h]

/-- Out of a delay slot an advance goes to the next address and leaves pending the target it is given, if any. -/
theorem State.advance_of_normal (h : s.control = .normal) (b : Option Word) :
    (s.advance b).pc = s.pc + 4 ∧ (s.advance b).pendingTarget = b ∧ (s.advance b).inDelaySlot = b.isSome := by
  cases b with
  | none => rw [State.advance_normal_none h]; exact ⟨rfl, State.pendingTarget_of_normal h, (State.inDelaySlot_eq_false _).mpr h⟩
  | some q => rw [State.advance_normal_some h]; exact ⟨rfl, rfl, rfl⟩

/-- Where a branch in a delay slot goes under each policy that lets it run (44_control_transfer.md R161 to R163). -/
theorem State.advance_pending_policy (h : s.control = .delaySlotPending p) (q : Word) :
    (s.config.branchPolicy = .firstWins → (s.advance (some q)).pc = p ∧ (s.advance (some q)).control = .normal) ∧
    (s.config.branchPolicy = .lastWriteWins → (s.advance (some q)).pc = q ∧ (s.advance (some q)).control = .normal) ∧
    (s.config.branchPolicy = .pipelined → (s.advance (some q)).pc = p ∧ (s.advance (some q)).control = .delaySlotPending q) := by
  rw [State.advance_pending_some h, State.delaySlotBranch]
  refine ⟨fun hp => ?_, fun hp => ?_, fun hp => ?_⟩ <;> rw [hp] <;> exact ⟨rfl, rfl⟩

/-- The delay-slot state's two readings are functions of it. -/
theorem State.readings_congr (h : t.control = s.control) :
    t.pendingTarget = s.pendingTarget ∧ t.inDelaySlot = s.inDelaySlot := by
  simp only [State.pendingTarget, State.inDelaySlot, h, and_self]

theorem AdvancesPast.control_normal (h : AdvancesPast s t) : t.control = .normal := by
  unfold AdvancesPast at h
  split at h <;> exact h.2

theorem AdvancesPast.of_pending (h : AdvancesPast s t) (hp : s.control = .delaySlotPending p) : t.pc = p ∧ t.control = .normal := by
  simpa only [AdvancesPast, hp] using h

end

/-- Settles O47: the writes by the commit's registers and memory, the transitions by the advance of the state before it. -/
theorem commitIsTheStateMachine : Obligations.CommitIsTheStateMachine := by
  intro s e
  obtain ⟨hpc, hct⟩ := s.commit_pc_control e
  obtain ⟨hpend, hslot⟩ := State.readings_congr hct
  refine ⟨s.commit_config e, s.commit_status e, fun hr q => ?_, fun r v hr q => ?_, fun hm => ?_, fun a w v hm => ?_, fun hn => ?_,
    fun p hp hb => ?_, fun p t hp hb => ?_⟩
  · rw [State.commit_reg, hr]; rfl
  · rw [State.commit_reg, hr]; exact s.reg_writeReg r q v
  · rw [State.commit_mem, hm]; rfl
  · rw [State.commit_mem, hm]; rfl
  · rw [hpc, hpend, hslot]; exact State.advance_of_normal hn e.branch
  · rw [hpc, hpend, hslot, hb, State.advance_pending_none hp]; exact ⟨rfl, rfl, rfl⟩
  · rw [hpc, hct, hb]; exact State.advance_pending_policy hp t

/-! Instructions that are no J or BEQ -/

/-- An instruction that is no J or BEQ and completes goes to the next address, or out of a delay slot to the pending target. -/
theorem exec_advancesPast {i : Instr} {s t : State} (h : exec i s = .next t) (hi : isTransfer i = false) : AdvancesPast s t := by
  rcases exec_next h with ⟨r, v, -, -, -, rfl⟩ | ⟨w, rs, imm, rt, -, -, -, -, rfl⟩ | ⟨ht, -⟩
  · exact State.advancesPast (s.writeReg_pc r v) (s.writeReg_control r v)
  · exact State.advancesPast (s.storeBytes_pc ..) (s.storeBytes_control ..)
  · rw [hi] at ht; cases ht

/-- Settles O50: such an instruction leaves the delay-slot state Normal. -/
theorem onlyTransfersSetAPendingTarget : Obligations.OnlyTransfersSetAPendingTarget := by
  intro i s t h hi
  have hadv := exec_advancesPast h hi
  exact ⟨hadv, State.pendingTarget_of_normal hadv.control_normal, (State.inDelaySlot_eq_false t).mpr hadv.control_normal⟩

/-! J and BEQ (44_control_transfer.md R150 to R153, R158 to R163) -/

section
variable {s : State} {i : Instr} {p : Word}

theorem isTransfer_of_takenTarget (h : takenTarget s i = some p) : isTransfer i = true := by
  cases i
  case j | beq => rfl
  all_goals cases h

theorem exec_transfer_rejected (hi : isTransfer i = true) (hd : s.inDelaySlot = true) (hp : s.config.branchPolicy = .reject) :
    exec i s = .fault (.fatal .branchInDelaySlot) := by
  rw [exec_transfer hi, State.transfer_rejected _ hd hp, State.finish_error]

theorem exec_transfer_allowed (hi : isTransfer i = true) (hp : s.config.branchPolicy ≠ .reject) :
    exec i s = .next (s.advance (takenTarget s i)) := by
  rw [exec_transfer hi, State.transfer_allowed _ fun h => hp h.2, State.finish_ok, State.commit_branch]

/-- A J or BEQ that no policy rejects touches neither registers nor memory. -/
theorem exec_transfer_onlyControl (hi : isTransfer i = true) (hp : s.config.branchPolicy ≠ .reject) :
    ∃ t, exec i s = .next t ∧ OnlyControl s t :=
  ⟨_, exec_transfer_allowed hi hp, s.onlyControl _⟩

/-- A branch taken out of a delay slot leaves its target pending. -/
theorem exec_taken_normal (hc : s.control = .normal) (h : takenTarget s i = some p) :
    exec i s = .next { s with pc := s.pc + 4, control := .delaySlotPending p } := by
  rw [exec_transfer_normal (isTransfer_of_takenTarget h) hc, h, State.advance_normal_some hc]

end

theorem encodedBy_j : EncodedBy 0xFC000000 0x08000000 (fun w => .j (w.extractLsb' 0 26)) :=
  encodedBy_row (m := .j) (fun _ => rfl) fun | .j target, _ => congrArg Instr.j (targetField_encodeJ 0x02#6 target)

theorem encodedBy_beq : EncodedBy 0xFC000000 0x10000000
    (fun w => .beq (regOf (w.extractLsb' 21 5)) (regOf (w.extractLsb' 16 5)) (w.extractLsb' 0 16)) :=
  encodedBy_row (m := .beq) (fun _ => rfl) fun
    | .beq rs rt imm, _ => ofRtRsImm_encodeI (fun rt rs imm => .beq rs rt imm) _ rt rs imm

/-- Settles O42: the target's value as a number, and in a delay slot by the policy. -/
theorem jumpSetsThePendingTarget : Obligations.JumpSetsThePendingTarget := by
  refine ⟨encodedBy_j, fun target s hc => ⟨_, jumpTarget s.pc target, exec_taken_normal hc rfl, ?_, rfl, rfl, ?_⟩,
    fun target s => exec_transfer_rejected rfl, fun target s _ => exec_transfer_onlyControl rfl⟩
  · rw [← State.advance_normal_some hc]; exact s.onlyControl _
  · rw [toNat_jumpTarget, toNat_add_four]

/-- Settles O43: taken and not taken out of a delay slot, and in one by the policy. -/
theorem beqBranchesWhenEqual : Obligations.BeqBranchesWhenEqual :=
  ⟨encodedBy_beq, fun _ _ imm _ hc h => exec_beq_taken hc h imm, fun _ _ imm _ hc h => exec_beq_not_taken hc h imm,
    fun _ _ _ _ => exec_transfer_rejected rfl, fun _ _ _ _ _ => exec_transfer_onlyControl rfl⟩

/-- Settles O44: the branch itself checks nothing, and the fetch at the target does. -/
theorem targetsAreAlignedAndUnchecked : Obligations.TargetsAreAlignedAndUnchecked :=
  ⟨fun _ _ _ hpc => takenTarget_aligned hpc, fun _ _ _ hc h => ⟨_, exec_taken_normal hc h, rfl⟩,
    fun _ hs hb => ⟨_, step_fetch_outOfBounds hs hb, rfl⟩⟩

/-- Settles O45: the fatal condition is raised before BEQ's comparison, and the step records it. -/
theorem rejectedBranchInADelaySlot : Obligations.RejectedBranchInADelaySlot := by
  intro s i p hs hc hp hi ht
  have hx := exec_transfer_rejected ht (State.inDelaySlot_of_pending hc) hp
  exact ⟨_, step_of_exec_fatal hs hi hx, rfl, rfl, rfl, (s.pendingTarget_eq_some p).mpr hc⟩

/-- Settles O46: by the advance out of the delay slot, without a branch or with one. -/
theorem allowedBranchInADelaySlot : Obligations.AllowedBranchInADelaySlot := by
  intro s i p hc hi hp
  refine ⟨_, exec_transfer_allowed hi hp, s.onlyControl _, fun hn => ?_, fun q hq => ?_⟩
  · rw [hn, State.advance_pending_none hc]; exact ⟨rfl, rfl⟩
  · rw [hq]; exact State.advance_pending_policy hc q

/-- Settles O48: the branch leaves its target pending, and the instruction in the slot advances past it. -/
theorem delaySlotLaw : Obligations.DelaySlotLaw := by
  intro s i p hs hc hi htaken
  refine ⟨_, step_of_exec_next hs hi (exec_taken_normal hc htaken), rfl, rfl, hs, ?_, fun j v hj hplain hstep hv => ?_⟩
  · rw [← State.advance_normal_some hc]; exact s.onlyControl _
  · have hx := exec_of_step_running (by exact hs) hj hstep hv
    exact ⟨hx, (exec_advancesPast hx hplain).of_pending rfl⟩

/-- Settles O49: the BEQ leaves the delay-slot state Normal, where no policy rejects a transfer. -/
theorem notTakenBeqHasNoDelaySlot : Obligations.NotTakenBeqHasNoDelaySlot := by
  intro s rs rt imm hs hc hi hne
  obtain ⟨u, hx, ⟨-, -, -, hstatus⟩, hpc, hu⟩ := exec_beq_not_taken hc hne imm
  have hus : u.status = .running := hstatus.trans hs
  refine ⟨u, step_of_exec_next hs hi hx, hpc, hu, fun j hj ht => ?_⟩
  exact ⟨_, step_of_exec_next hus hj (exec_transfer_normal ht hu), (u.advance_status _).trans hus⟩

/-! The self-loop (44_control_transfer.md R167) -/

/-- The word at an address depends on the byte order and its four bytes alone. -/
theorem wordAt_congr_reads {s t : State} {a : Nat} (hc : t.config = s.config)
    (h : ∀ k < 4, t.mem.read (a + k) = s.mem.read (a + k)) : wordAt t a = wordAt s a := by
  have h0 : t.mem.read a = s.mem.read a := h 0 (by decide)
  simp only [wordAt, hc, h0, h 1 (by decide), h 2 (by decide), h 3 (by decide)]

/-- A transfer that the host takes for a self-loop is taken, to `pc` itself. -/
theorem takenTarget_of_loopsTo {s : State} {i : Instr} (h : loopsTo s.pc i = true) : takenTarget s i = some s.pc := by
  cases i
  case j target => exact congrArg some (beq_iff_eq.mp h)
  case beq rs rt imm =>
    obtain ⟨rfl, rfl⟩ : rs = rt ∧ imm = 0xFFFF := by simpa [loopsTo] using h
    have hoff : (4 : Word) + branchOffset 0xFFFF = 0#32 := by decide
    rw [takenTarget, if_pos rfl, branchTarget, BitVec.add_assoc, hoff, BitVec.add_zero]
  all_goals cases h

/-- An instruction that is no J or BEQ completes when its data access, if it has one, is in bounds. -/
theorem exec_completes {i : Instr} {s : State} (hi : isTransfer i = false)
    (hb : ∀ w k rs imm, dataAccess i = some (w, k, rs, imm) →
      (s.effectiveAddress rs imm).toNat + w.bytes ≤ s.config.memSize) : ∃ e, exec i s = .next (s.commit e) := by
  rcases exec_cases i s with ⟨-, -, r, v, -, h⟩ | ⟨-, w, rs, imm, -, -, hd, -⟩ | ⟨-, w, rs, imm, -, hd, -⟩ | ⟨ht, -⟩
  · exact ⟨_, h⟩
  · exact exec_access_inBounds hd (hb _ _ _ _ hd)
  · exact exec_access_inBounds hd (hb _ _ _ _ hd)
  · rw [hi] at ht; cases ht

theorem registerWritten_of_store {i : Instr} {w : AccessWidth} {rs : RegIdx} {imm : Imm16}
    (h : dataAccess i = some (w, .store, rs, imm)) : registerWritten i = none := by
  cases i
  case sb | sh | sw => rfl
  all_goals cases h

/-- The address `c` is none of the bytes that `j`, if it is a store, writes in the state `s`. -/
def ApartFromStore (s : State) (j : Instr) (c : Nat) : Prop :=
  ∀ w rs imm, dataAccess j = some (w, .store, rs, imm) →
    c < (s.effectiveAddress rs imm).toNat ∨ (s.effectiveAddress rs imm).toNat + w.bytes ≤ c

/-- What `t` still has of `s` when only `j`, any number of times, and transfers ran between them: all but `pc`, the delay-slot
state, `j`'s destination and the bytes it stores. -/
structure KeepsAllBut (j : Instr) (s t : State) : Prop where
  config : t.config = s.config
  status : t.status = s.status
  wf     : t.mem.wf
  reg    : ∀ q, registerWritten j ≠ some q → t.reg q = s.reg q
  mem    : isStore j = false → t.mem = s.mem
  read   : ∀ c, ApartFromStore s j c → t.mem.read c = s.mem.read c

section
variable {s t u : State} {i j : Instr} {a : Nat}

theorem KeepsAllBut.refl (j : Instr) (hwf : s.mem.wf) : KeepsAllBut j s s :=
  ⟨rfl, rfl, hwf, fun _ _ => rfl, fun _ => rfl, fun _ _ => rfl⟩

/-- A store has no destination that its base could be, so its address stays. -/
theorem KeepsAllBut.apart (h : KeepsAllBut j s t) {c : Nat} (hc : ApartFromStore s j c) : ApartFromStore t j c := by
  intro w rs imm hd
  have hreg : SameRegisters s t := fun q => h.reg q (by rw [registerWritten_of_store hd]; nofun)
  rw [effectiveAddress_of_sameRegisters hreg]
  exact hc w rs imm hd

theorem KeepsAllBut.trans (h : KeepsAllBut j s t) (k : KeepsAllBut j t u) : KeepsAllBut j s u :=
  ⟨k.config.trans h.config, k.status.trans h.status, k.wf, fun q hq => (k.reg q hq).trans (h.reg q hq),
    fun hn => (k.mem hn).trans (h.mem hn), fun c hc => (k.read c (h.apart hc)).trans (h.read c hc)⟩

theorem KeepsAllBut.advance (j : Instr) (hwf : s.mem.wf) (b : Option Word) : KeepsAllBut j s (s.advance b) :=
  ⟨s.advance_config b, s.advance_status b, by rwa [s.advance_mem b], fun q _ => s.advance_reg b q,
    fun _ => s.advance_mem b, fun c _ => by rw [s.advance_mem b]⟩

/-- One run of `j` changes no more than its destination, or the bytes it stores. -/
theorem KeepsAllBut.of_exec (hwf : s.mem.wf) (h : exec j s = .next t) : KeepsAllBut j s t := by
  rcases exec_next h with ⟨r, v, hr, -, -, rfl⟩ | ⟨w, rs, imm, rt, hd, -, -, -, rfl⟩ | ⟨-, -, -, -, rfl⟩
  · have hmem : (s.commit (.writes r v)).mem = s.mem := s.commit_mem _
    exact ⟨s.commit_config _, s.commit_status _, by rwa [hmem], fun q hq => s.commit_reg_of_ne fun hq' => hq (hr.trans hq'),
      fun _ => hmem, fun c _ => by rw [hmem]⟩
  · obtain ⟨⟨-, hread⟩, hreg, ⟨hcf, hst⟩, -⟩ := State.storesBytes hwf (s.effectiveAddress rs imm) w (s.reg rt)
    refine ⟨hcf, hst, ?_, fun q _ => hreg q, fun hn => ?_, fun c hc => hread c ?_⟩
    · rw [State.commit_mem]; exact Memory.wf_writeBytes hwf _ _
    · simp [isStore, hd] at hn
    · rw [length_bytesOf]; exact hc w rs imm hd
  · exact KeepsAllBut.advance j hwf _

theorem KeepsAllBut.wordAt (h : KeepsAllBut j s t) (ha : ∀ k < 4, ApartFromStore s j (a + k)) : wordAt t a = wordAt s a :=
  wordAt_congr_reads h.config fun k hk => h.read _ (ha k hk)

end

/-- The self-loop `i` at `pc` with `j` in its delay slot: `j`'s access, if it has one, is in bounds whatever `j` has written to its
own destination, and no store of it reaches the two instructions. -/
structure SelfLoop (s : State) (i j : Instr) : Prop where
  wf        : s.mem.wf
  running   : s.status = .running
  at_pc     : InstructionAtPc s i
  loops     : loopsTo s.pc i = true
  slot_end  : (s.pc + 4).toNat + 4 ≤ s.config.memSize
  slot      : decode (wordAt s (s.pc + 4).toNat) = .ok j
  plain     : isTransfer j = false
  in_bounds : ∀ w k rs imm, dataAccess j = some (w, k, rs, imm) → ∀ t : State, t.config = s.config →
    (∀ q, registerWritten j ≠ some q → t.reg q = s.reg q) → (t.effectiveAddress rs imm).toNat + w.bytes ≤ s.config.memSize
  apart     : ∀ a ∈ [s.pc.toNat, (s.pc + 4).toNat], ∀ k < 4, ApartFromStore s j (a + k)

/-- The loop is at its transfer. -/
structure AtTransfer (s : State) (j : Instr) (t : State) : Prop where
  kept    : KeepsAllBut j s t
  pc      : t.pc = s.pc
  control : t.control = .normal

/-- The loop is in its delay slot. -/
structure InSlot (s : State) (j : Instr) (u : State) : Prop where
  kept    : KeepsAllBut j s u
  pc      : u.pc = s.pc + 4
  control : u.control = .delaySlotPending s.pc

section
variable {s t u : State} {i j : Instr}

theorem SelfLoop.step_transfer (h : SelfLoop s i j) (ht : AtTransfer s j t) : ∃ u, step t = .next u ∧ InSlot s j u := by
  obtain ⟨hend, hdec⟩ := h.at_pc
  have hat : InstructionAtPc t i := by
    rw [InstructionAtPc, ht.pc, ht.kept.config, ht.kept.wordAt (h.apart _ (by simp))]
    exact ⟨hend, hdec⟩
  have htaken : takenTarget t i = some s.pc := ht.pc ▸ takenTarget_of_loopsTo (ht.pc ▸ h.loops)
  have hadv := State.advance_normal_some ht.control s.pc
  refine ⟨_, step_of_exec_next (ht.kept.status.trans h.running) hat (exec_taken_normal ht.control htaken), ?_, ?_, rfl⟩
  · rw [← hadv]; exact ht.kept.trans (KeepsAllBut.advance j ht.kept.wf _)
  · rw [← ht.pc]

theorem SelfLoop.step_slot (h : SelfLoop s i j) (hu : InSlot s j u) : ∃ t, step u = .next t ∧ AtTransfer s j t := by
  have hat : InstructionAtPc u j := by
    rw [InstructionAtPc, hu.pc, hu.kept.config, hu.kept.wordAt (h.apart _ (by simp))]
    exact ⟨h.slot_end, h.slot⟩
  obtain ⟨e, hx⟩ := exec_completes (s := u) h.plain fun w k rs imm hd => by
    rw [hu.kept.config]; exact h.in_bounds w k rs imm hd u hu.kept.config hu.kept.reg
  obtain ⟨hpc, hct⟩ := (exec_advancesPast hx h.plain).of_pending hu.control
  exact ⟨_, step_of_exec_next (hu.kept.status.trans h.running) hat hx, hu.kept.trans (KeepsAllBut.of_exec hu.kept.wf hx), hpc, hct⟩

theorem run_succ_of_step (h : step s = .next t) (n : Nat) : Sys2Proof.core.run (n + 1) s = Sys2Proof.core.run n t := by
  have hcore : Sys2Proof.core.step s = .next t := h
  simp only [Host.Core.run, hcore]

/-- Every two steps the loop is back at its transfer. -/
theorem SelfLoop.run (h : SelfLoop s i j) (n : Nat) (ht : AtTransfer s j t) :
    ∃ v u, Sys2Proof.core.run (2 * n) t = .next v ∧ AtTransfer s j v ∧
      Sys2Proof.core.run (2 * n + 1) t = .next u ∧ InSlot s j u := by
  obtain ⟨u, htu, hu⟩ := h.step_transfer ht
  induction n generalizing t u with
  | zero => exact ⟨t, u, rfl, ht, run_succ_of_step htu 0, hu⟩
  | succ n ih =>
    obtain ⟨t', hut, ht'⟩ := h.step_slot hu
    obtain ⟨u', htu', hu'⟩ := h.step_transfer ht'
    have htwo : ∀ m, Sys2Proof.core.run (m + 2) t = Sys2Proof.core.run m t' := fun m => by
      rw [run_succ_of_step htu, run_succ_of_step hut]
    rw [Nat.mul_succ, htwo, Nat.add_right_comm, htwo]
    exact ih ht' u' htu' hu'

end

/-- Settles O51: by induction on the passes through the loop, from the transfer back to it. -/
theorem selfLoopRunsForever : Obligations.SelfLoopRunsForever := by
  intro s i j hwf hs hc hi hloops hend hslot hplain haccess n
  have hloop : SelfLoop s i j :=
    { wf := hwf, running := hs, at_pc := hi, loops := hloops, slot_end := hend, slot := hslot, plain := hplain
      in_bounds := fun w k rs imm hd => (haccess w k rs imm hd).1
      apart := fun a ha k hk w rs imm hd => by
        have := (haccess w .store rs imm hd).2 rfl a ha
        omega }
  obtain ⟨t, u, hrun, ⟨ht, hpc, hct⟩, hrun', ⟨hu, hpc', hct'⟩⟩ := hloop.run n ⟨KeepsAllBut.refl j hwf, rfl, hc⟩
  exact ⟨t, u, hrun, hpc, hct, ht.status.trans hs, hrun', hpc', hct', hu.status.trans hs,
    fun hn => ⟨ht.mem hn, hu.mem hn⟩, fun c hc => ⟨ht.read c hc, hu.read c hc⟩⟩

end Sys2Proof.Machine
end

section
/-! The statements of 60_exceptions.md: which check a step fails, what a fatal condition leaves, the stopped core, and what the host
sees of a step, of a run and of memory. -/

namespace Sys2Proof.Machine

/-! Which instruction raises what (60_exceptions.md R172) -/

section
variable {i : Instr} {s : State}

/-- An instruction that is no rejected J or BEQ, and whose data access, if it has one, is in bounds, completes. -/
theorem exec_next_of_checks (ht : ¬ (isTransfer i = true ∧ s.inDelaySlot = true ∧ s.config.branchPolicy = .reject))
    (hb : ∀ w k rs imm, dataAccess i = some (w, k, rs, imm) →
      (s.effectiveAddress rs imm).toNat + w.bytes ≤ s.config.memSize) : ∃ e, exec i s = .next (s.commit e) := by
  cases hi : isTransfer i with
  | false => exact exec_completes hi hb
  | true => exact ⟨_, by rw [exec_transfer hi, State.transfer_allowed _ fun hr => ht ⟨hi, hr⟩, State.finish_ok]⟩

/-- The fatal conditions of an instruction: a J or BEQ that is rejected, a load or store out of bounds. -/
theorem exec_fatal_iff {c : Cause} : exec i s = .fault (.fatal c) ↔
    (isTransfer i = true ∧ s.inDelaySlot = true ∧ s.config.branchPolicy = .reject ∧ c = .branchInDelaySlot) ∨
    (∃ w k rs imm, dataAccess i = some (w, k, rs, imm) ∧ s.config.memSize < (s.effectiveAddress rs imm).toNat + w.bytes ∧
      c = .outOfBoundsAccess (s.effectiveAddress rs imm) w k) := by
  constructor
  · intro h
    by_cases hr : isTransfer i = true ∧ s.inDelaySlot = true ∧ s.config.branchPolicy = .reject
    · obtain ⟨ht, hslot, hp⟩ := hr
      cases (exec_transfer_rejected ht hslot hp).symm.trans h
      exact .inl ⟨ht, hslot, hp, rfl⟩
    · by_contra hno
      obtain ⟨e, he⟩ := exec_next_of_checks hr fun w k rs imm hd => by
        by_contra hb
        have hb := Nat.lt_of_not_le hb
        cases (exec_access_outOfBounds hd hb).symm.trans h
        exact hno (.inr ⟨w, k, rs, imm, hd, hb, rfl⟩)
      cases he.symm.trans h
  · rintro (⟨ht, hslot, hp, rfl⟩ | ⟨w, k, rs, imm, hd, hb, rfl⟩)
    · exact exec_transfer_rejected ht hslot hp
    · exact exec_access_outOfBounds hd hb

/-- No instruction raises the out-of-bounds access of a fetch. -/
theorem not_fetch_of_exec_fatal {c : Cause} (h : exec i s = .fault (.fatal c)) (a : Word) (w : AccessWidth) :
    c ≠ .outOfBoundsAccess a w .fetch := by
  rintro rfl
  rcases exec_fatal_iff.mp h with ⟨-, -, -, hc⟩ | ⟨_, k, _, _, hd, -, hc⟩ <;> cases hc
  rcases exec_access s hd with ⟨hk, -⟩ | ⟨hk, -⟩ <;> cases hk

end

/-- Settles O53: by the iff of an instruction's fatal conditions, and a completed instruction being a commit. -/
theorem whichInstructionRaisesWhat : Obligations.WhichInstructionRaisesWhat := by
  refine ⟨fun i s c => exec_fatal_iff, fun i s => ?_⟩
  rcases exec_outcome i s with ⟨e, h⟩ | h
  · exact .inr ⟨_, h, s.commit_status e⟩
  · exact .inl h

/-! The step (60_exceptions.md R173, R176) -/

/-- Settles O54: each check that fails is the step's fatal condition, and a step that passes them all completes. -/
theorem fatalConditionsInStepOrder : Obligations.FatalConditionsInStepOrder := by
  intro s hs
  refine ⟨fun hb => ⟨_, step_fetch_outOfBounds hs hb, rfl, rfl⟩, fun hb e hd => ⟨_, step_unsupported hs hb hd, rfl⟩,
    fun i hi ht hslot hp => ⟨_, step_of_exec_fatal hs hi (exec_transfer_rejected ht hslot hp), rfl⟩,
    fun i w k rs imm hi hd hb => ⟨_, step_of_exec_fatal hs hi (exec_access_outOfBounds hd hb), rfl⟩, fun i hi ht hb => ?_⟩
  obtain ⟨e, he⟩ := exec_next_of_checks ht hb
  exact ⟨_, step_of_exec_next hs hi he, (s.commit_status e).trans hs, he⟩

/-- A step of a running core that stops it has taken a fatal condition: of the fetch, with no word, or of any other kind, with the
word at `pc`. -/
theorem step_stops {s t : State} {f : FaultRecord} (hs : s.status = .running) (h : step s = .next t) (ht : t.status = .stopped f) :
    ∃ c word, t = s.takeFatal c word ∧ f = s.faultRecord c word ∧
      ((word = none ∧ c = .outOfBoundsAccess s.pc .word .fetch) ∨
        (word = some (wordAt s s.pc.toNat) ∧ ∀ a w, c ≠ .outOfBoundsAccess a w .fetch)) := by
  have taken : ∀ {c word}, step s = .next (s.takeFatal c word) → t = s.takeFatal c word ∧ f = s.faultRecord c word := by
    intro c word hx
    cases hx.symm.trans h
    cases ht
    exact ⟨rfl, rfl⟩
  rcases fetchDecode_cases s with ⟨hb, -⟩ | ⟨hb, e, hd, -⟩ | ⟨i, hi, -⟩
  · obtain ⟨htaken, hf⟩ := taken (step_fetch_outOfBounds hs hb)
    exact ⟨_, _, htaken, hf, .inl ⟨rfl, rfl⟩⟩
  · obtain ⟨htaken, hf⟩ := taken (step_unsupported hs hb hd)
    exact ⟨_, _, htaken, hf, .inr ⟨rfl, fun _ _ => Cause.noConfusion⟩⟩
  · rcases exec_outcome i s with ⟨e, hx⟩ | ⟨c, hx⟩
    · cases (step_of_exec_next hs hi hx).symm.trans h
      cases ht.symm.trans ((s.commit_status e).trans hs)
    · obtain ⟨htaken, hf⟩ := taken (step_of_exec_fatal hs hi hx)
      exact ⟨_, _, htaken, hf, .inr ⟨rfl, not_fetch_of_exec_fatal hx⟩⟩

/-- Settles O55: by the fatal condition the step has taken, of the fetch or not. -/
theorem fatalConditionsArePrecise : Obligations.FatalConditionsArePrecise := by
  intro s t f hs h ht
  obtain ⟨c, word, rfl, rfl, hcase⟩ := step_stops hs h ht
  refine ⟨rfl, rfl, rfl, ?_⟩
  rw [State.faultRecord_word, State.faultRecord_cause]
  rcases hcase with ⟨rfl, rfl⟩ | ⟨rfl, hc⟩
  · exact ⟨⟨fun _ => ⟨_, _, rfl⟩, fun _ => rfl⟩, nofun⟩
  · exact ⟨⟨nofun, fun ⟨a, w, he⟩ => absurd he (hc a w)⟩, fun w hw => (Option.some.inj hw).symm⟩

/-! The host's step (60_exceptions.md R175, R185) -/

section
variable {s t : State} {f : FaultRecord}

theorem step_of_stopped (h : s.status = .stopped f) : step s = .fault (.halted f) := by simp only [step, h]

theorem hostStep_of_stopped (h : s.status = .stopped f) : hostStep s = ((.halted, s.inDelaySlot), s) := by
  simp only [hostStep, step_of_stopped h]

theorem hostStep_of_step_running (h : step s = .next t) (ht : t.status = .running) :
    hostStep s = ((.continued, t.inDelaySlot), t) := by simp only [hostStep, h, ht]

theorem hostStep_of_step_stopped (h : step s = .next t) (ht : t.status = .stopped f) :
    hostStep s = ((.trapped f, t.inDelaySlot), t) := by simp only [hostStep, h, ht]

end

/-- A running core has a next state. -/
theorem step_of_running {s : State} (hs : s.status = .running) : ∃ t, step s = .next t := by
  rcases step_cases s with ⟨f, hf, -⟩ | ⟨-, c, w, -, h⟩ | ⟨-, w, i, -, ⟨e, -, h⟩ | ⟨c, -, h⟩⟩
  · rw [hs] at hf; cases hf
  all_goals exact ⟨_, h⟩

/-- Settles O56: a stopped core is a fixed point of the host's step, and every other core has a next state. -/
theorem aStoppedCoreStaysStopped : Obligations.AStoppedCoreStaysStopped := by
  refine ⟨fun s f hf => ?_, fun s r => ?_, fun s r => ⟨fun h => ?_, ?_⟩⟩
  · have hfix : ∀ n, ((fun u => (hostStep u).2)^[n]) s = s := Function.iterate_fixed (by rw [hostStep_of_stopped hf])
    exact ⟨step_of_stopped hf, hfix, fun n => by rw [hfix, hostStep_of_stopped hf]⟩
  · cases hs : s.status with
    | stopped f => rw [step_of_stopped hs]; nofun
    | running => obtain ⟨t, h⟩ := step_of_running hs; rw [h]; nofun
  · cases hs : s.status with
    | stopped f => rw [step_of_stopped hs] at h; cases h; exact ⟨f, rfl, rfl⟩
    | running => obtain ⟨t, hx⟩ := step_of_running hs; cases hx.symm.trans h
  · rintro ⟨f, hf, rfl⟩
    exact step_of_stopped hf

/-- The three answers of the host's step: a stopped core halts, and a running one traps or continues as its next state has stopped
or runs. -/
theorem hostStep_cases (s : State) :
    (∃ f, s.status = .stopped f ∧ hostStep s = ((.halted, s.inDelaySlot), s)) ∨
    (s.status = .running ∧ ∃ t f, t.status = .stopped f ∧ hostStep s = ((.trapped f, t.inDelaySlot), t)) ∨
    (s.status = .running ∧ ∃ t, t.status = .running ∧ hostStep s = ((.continued, t.inDelaySlot), t)) := by
  cases hs : s.status with
  | stopped f => exact .inl ⟨f, rfl, hostStep_of_stopped hs⟩
  | running =>
    obtain ⟨t, h⟩ := step_of_running hs
    cases ht : t.status with
    | stopped f => exact .inr (.inl ⟨rfl, t, f, ht, hostStep_of_step_stopped h ht⟩)
    | running => exact .inr (.inr ⟨rfl, t, ht, hostStep_of_step_running h ht⟩)

/-- Settles O57: each of the three answers is told from the others by the two statuses. -/
theorem hostStepReports : Obligations.HostStepReports := by
  refine ⟨fun s => ?_, fun s => ?_, fun s f => ?_, fun s => ?_⟩ <;>
    rcases hostStep_cases s with ⟨g, hs, h⟩ | ⟨hs, t, g, ht, h⟩ | ⟨hs, t, ht, h⟩ <;> simp [*]

/-! A run under a step ceiling (60_exceptions.md R188, R189) -/

/-- A core at a self-loop runs, out of a delay slot, and the instruction at its pc is the transfer to it. -/
theorem State.atSelfLoop_spec {s : State} (h : s.atSelfLoop = true) :
    s.status = .running ∧ s.inDelaySlot = false ∧ ∃ i, InstructionAtPc s i ∧ loopsTo s.pc i = true := by
  simp only [State.atSelfLoop, Bool.and_eq_true, beq_iff_eq, Bool.not_eq_true'] at h
  obtain ⟨⟨hs, hslot⟩, hloop⟩ := h
  refine ⟨hs, hslot, ?_⟩
  rcases fetchDecode_cases s with ⟨-, hd⟩ | ⟨-, e, -, hd⟩ | ⟨i, hi, hd⟩ <;> rw [hd] at hloop
  · cases hloop
  · cases hloop
  · exact ⟨i, hi, hloop⟩

/-- Settles O58: by the recursion of the run, which ends at what the harness sees before a step or goes on from the state after it. -/
theorem harnessRunEnds : Obligations.HarnessRunEnds := by
  intro n s e t h
  fun_induction harnessRun n s with
  | case1 n s f hf =>
    cases h
    exact ⟨fun g hg => by cases hg; exact hf, nofun, nofun⟩
  | case2 n s hs hloop =>
    cases h
    obtain ⟨-, hslot, i, hi, hto⟩ := State.atSelfLoop_spec hloop
    exact ⟨nofun, fun a ha => by cases ha; exact ⟨rfl, hs, hslot, i, hi, hto, takenTarget_of_loopsTo hto⟩, nofun⟩
  | case3 s hs hloop =>
    cases h
    exact ⟨nofun, nofun, fun _ => ⟨hs, rfl⟩⟩
  | case4 s hs hloop n ih => exact ih h

/-! Inspection (60_exceptions.md R187) -/

theorem Memory.getElem_readBytes (m : Memory) (a n : Nat) {i : Nat} (h : i < (m.readBytes a n).length) :
    (m.readBytes a n)[i] = m.read (a + i) := by simp [Memory.readBytes]

/-- Settles O59: inside the provisioned range the answer is the bytes read, outside it there is none. -/
theorem inspectionReadsWhatIsHeld : Obligations.InspectionReadsWhatIsHeld := by
  refine ⟨fun s a n => ?_, fun s a n bs h => ?_⟩ <;> by_cases hb : a + n ≤ s.config.memSize
  · simp [inspectMem, hb]
  · simp [inspectMem, hb, Nat.lt_of_not_le hb]
  · rw [inspectMem, if_pos hb] at h
    cases h
    exact ⟨s.mem.length_readBytes a n, fun i hi => s.mem.getElem_readBytes a n hi⟩
  · rw [inspectMem, if_neg hb] at h
    cases h

end Sys2Proof.Machine
end

section
/-! The statements of 70_reset_and_hazards.md: what construction refuses, an entry outside memory, and the instruction after a
load. -/

namespace Sys2Proof.Machine

/-! Construction (70_reset_and_hazards.md R200, R201) -/

theorem construct_eq_none_iff (c : Config) : construct c = none ↔ configAccepted c = false := by
  rw [construct]
  cases configAccepted c <;> simp

/-- A configuration is not accepted exactly when one of R201's conditions fails. -/
theorem configAccepted_eq_false_iff (c : Config) : configAccepted c = false ↔
    c.memSize < 0x201 ∨ 2 ^ 32 < c.memSize ∨ c.memSize < c.imageBase.toNat + c.image.length ∨ c.entry.toNat % 4 ≠ 0 := by
  simp only [configAccepted, Bool.and_eq_false_iff, decide_eq_false_iff_not, beq_eq_false_iff_ne, Nat.not_le, or_assoc, ne_eq]

/-- A constructed core runs, with its configuration, from `ENTRY`. -/
theorem running_at_entry_of_construct {c : Config} {s : State} (h : construct c = some s) :
    s.status = .running ∧ s.config = c ∧ s.pc = c.entry := by
  rw [construct] at h
  split at h
  · cases h; exact ⟨rfl, rfl, rfl⟩
  · cases h

/-- Settles O2: construction refuses what is not accepted, and the first step of a core whose `ENTRY` word is not provisioned takes
the fatal condition of its fetch. -/
theorem constructionRefusesExactly : Obligations.ConstructionRefusesExactly := by
  refine ⟨fun c => (construct_eq_none_iff c).trans (configAccepted_eq_false_iff c), fun c s h hb => ?_⟩
  obtain ⟨hrun, rfl, hpc⟩ := running_at_entry_of_construct h
  rw [← hpc] at hb ⊢
  exact ⟨_, step_fetch_outOfBounds hrun hb, rfl⟩

/-! The instruction after a load (70_reset_and_hazards.md R206, R207) -/

/-- Settles O31: the load leaves the word in `rt`, and an ADDU of `rt` and register 0 commits the value of `rt`. -/
theorem noLoadDelay : Obligations.NoLoadDelay := by
  intro rt rs imm s t hrt h rd hrd
  have hloaded : t.reg rt = wordAt s (s.effectiveAddress rs imm).toNat :=
    reg_of_exec_next hrt (exec_lw (inBounds_of_exec_next rfl h)) h
  obtain ⟨hmove, -⟩ := exec_move rd rt t
  exact ⟨_, hmove, (State.reg_commit_writes t hrd _).trans hloaded⟩

end Sys2Proof.Machine
end

section
/-! The remaining statements: an encoded instruction decodes to itself (30_encoding.md), canonical memory is determined by its reads
(20_memory.md), and construction and reset meet the invariant (70_reset_and_hazards.md). -/

namespace Sys2Proof

/-! An encoded instruction decodes to itself (30_encoding.md R61 to R70) -/

section
variable (op fn : BitVec 6) (rs rt rd : RegIdx) (sa : Shamt) (imm : Imm16)

theorem rtRsImm_encodeI (mk : RegIdx → RegIdx → Imm16 → Instr) :
    rtRsImm (encodeI op (fieldOf rs) (fieldOf rt) imm) mk = .ok (mk rt rs imm) := by
  simp [rtRsImm]

theorem shiftImm_encodeR (mk : RegIdx → RegIdx → Shamt → Instr) :
    shiftImm (encodeR 0#5 (fieldOf rt) (fieldOf rd) sa fn) mk = .ok (mk rd rt sa) := by
  simp [shiftImm]

/-- Whichever registers a three-register instruction names, in whichever order, it is accepted when `shamt = 0`. -/
theorem threeReg_encodeR (a b c : BitVec 5) (mk : RegIdx → RegIdx → RegIdx → Instr) (x y z : RegIdx) :
    threeReg (encodeR a b c 0#5 fn) mk (fieldOf x) (fieldOf y) (fieldOf z) = .ok (mk x y z) :=
  if_pos (shamtField_encodeR ..)

/-- An R-format word is decoded by its function code. -/
theorem decode_encodeR (a b c : BitVec 5) :
    decode (encodeR a b c sa fn) = decodeSpecial (encodeR a b c sa fn) := decode_special (opField_encodeR ..)

end

/-- Each format's fields are read back off the word, the opcode and function code select the instruction's own case, and the fields
that case wants zero are zero. -/
theorem decode_encode (i : Instr) : decode (encode i) = .ok i := by
  cases i <;> rw [encode]
  case sll | srl | sra =>
    rw [decode_encodeR, decodeSpecial, functField_encodeR]
    exact shiftImm_encodeR ..
  case addu | subu | and | or | xor | nor | slt | sltu | sllv | srlv | srav =>
    rw [decode_encodeR, decodeSpecial, functField_encodeR, rdField_encodeR, rsField_encodeR, rtField_encodeR]
    exact threeReg_encodeR ..
  case lui =>
    rw [decode, opField_encodeI, rtField_encodeI, immField_encodeI]
    exact if_pos (rsField_encodeI ..)
  case beq =>
    rw [decode, opField_encodeI, rsField_encodeI, rtField_encodeI, immField_encodeI]
    rfl
  case j =>
    rw [decode, opField_encodeJ, targetField_encodeJ]
    rfl
  all_goals
    rw [decode, opField_encodeI]
    exact rtRsImm_encodeI ..

/-- Settles O9, by the case of each format. -/
theorem decodeOfEncode : Obligations.DecodeOfEncode := decode_encode

end Sys2Proof

namespace Sys2Proof.Machine

/-! Canonical memory (20_memory.md R33, 10_state.md R34) -/

/-- A canonical memory lists exactly the bytes that differ from what an unlisted address reads as. -/
theorem Memory.mem_iff_read {m : Memory} (h : m.wf) {a : Nat} {v : Byte} :
    (a, v) ∈ m ↔ m.read a = v ∧ v ≠ unlistedByte := by
  induction m with
  | nil => simp [eq_comm]
  | cons c m ih =>
    obtain ⟨b, w⟩ := c
    obtain ⟨hlt, hw, hm⟩ := Memory.wf_cons.mp h
    rw [List.mem_cons, ih hm, Memory.read]
    by_cases hab : a = b
    · subst hab
      rw [Memory.read_of_lt hlt, if_pos rfl]
      constructor
      · rintro (hcell | ⟨rfl, hv⟩)
        · cases hcell; exact ⟨rfl, hw⟩
        · exact absurd rfl hv
      · rintro ⟨rfl, -⟩; exact .inl rfl
    · simp [hab]

/-- Settles O39: both memories list the same cells, and a list with strictly rising addresses is determined by its cells. -/
theorem canonicalMemoryIsDeterminedByItsReads : Obligations.CanonicalMemoryIsDeterminedByItsReads := by
  intro m k hm hk hread
  have hcells : ∀ c, c ∈ m ↔ c ∈ k := fun ⟨a, v⟩ => by
    rw [Memory.mem_iff_read hm, Memory.mem_iff_read hk, hread]
  have : Std.Irrefl fun c d : Host.Cell => c.1 < d.1 := ⟨fun c => Nat.lt_irrefl c.1⟩
  have : Std.Antisymm fun c d : Host.Cell => c.1 < d.1 := ⟨fun _ _ h h' => absurd h (Nat.lt_asymm h')⟩
  exact hm.1.eq_of_mem_iff hk.1 hcells

/-! Construction meets the invariant (70_reset_and_hazards.md R200, R201) -/

/-- What R201 asks of an accepted image and entry. -/
theorem image_and_entry_of_configAccepted {c : Config} (h : configAccepted c = true) :
    c.imageBase.toNat + c.image.length ≤ c.memSize ∧ c.entry.toNat % 4 = 0 := by
  simp only [configAccepted, Bool.and_eq_true, decide_eq_true_eq, beq_iff_eq] at h
  obtain ⟨⟨-, himage⟩, hentry⟩ := h
  exact ⟨himage, hentry⟩

/-- Settles O5: registers are 0, the entry is aligned, and memory lists bytes of the image only, which lies in the provisioned
range. -/
theorem constructionMeetsTheInvariant : Obligations.ConstructionMeetsTheInvariant := by
  intro c s h
  rw [construct] at h
  split at h
  case isFalse => cases h
  case isTrue hc =>
    cases h
    obtain ⟨himage, hentry⟩ := image_and_entry_of_configAccepted hc
    refine ⟨hc, by simp, hentry, rfl, Memory.wf_writeBytes Memory.wf_nil _ _, fun d hd => ?_, rfl⟩
    rcases Memory.mem_writeBytes hd with hd | ⟨-, hd⟩
    · cases hd
    · exact Nat.lt_of_lt_of_le hd himage

/-- Settles O3, by running the construction. -/
theorem resetIsTheDefaultConstruction : Obligations.ResetIsTheDefaultConstruction :=
  ⟨rfl, rfl, rfl, rfl, rfl, rfl, rfl⟩

/-- Settles O4: the reset state is a construction. -/
theorem resetMeetsTheInvariant : Obligations.ResetMeetsTheInvariant :=
  constructionMeetsTheInvariant _ _ resetIsTheDefaultConstruction.1

end Sys2Proof.Machine
end
